-- ==== Sys2Proof/Word.lean ====
section
/-!
DEFINITION. The word types of Micron: a 32-bit word, which is also a byte address (00_scope.md R6 XLEN, ALEN),
and the byte, the unit an address names (20_memory.md R50).
-/

namespace Sys2Proof

/-- A value of a general register, a byte address or an instruction word: 32 bits (10_state.md R20, R24; 30_encoding.md R110).
The width is written in the type; that it is `XLEN`, `ALEN` and `ILEN` of the configuration record is
`Config.widths_are_decided` of Laws/Config.lean (log entry 45). -/
abbrev Word := BitVec 32

/-- The unit of memory: 8 bits (20_memory.md R50). -/
abbrev Byte := BitVec 8

end Sys2Proof
end

