-- ==== Sys2Proof/Config.lean ====
section
/-!
DEFINITION. The configuration record (00_scope.md R6), one field per row of its table, under the spec's names. The rows with
a value are the `DecidedParameters`, and `Config.decided` holds the values: the definitions of the model read it. The rows
marked OPEN have no value here and are arguments: the `LaunchParameters` of a run, the `LinkParameters` of the assembler.
Then the values that `State.reset` names for the launch (log entries 2, 3, 6), what an unlisted byte reads as, and the
free values. How the record is read is log entry 45.
-/

namespace Sys2Proof

/-! ### Rows with a value -/

/-- `ENDIAN`: which byte of an access holds the low bits (20_memory.md R54). -/
inductive ByteOrder where
  | little
  | big
deriving DecidableEq, Repr

/-- `LD_EXTEND`: the widening of a 1- or 2-byte load (42_ld_st.md R167). -/
inductive LoadExtend where
  | zero
  | sign
deriving DecidableEq, Repr

/-- `ADDI_FLAGS`: what `ADDI` does to the flags (43_addi.md R187): a draw each, or the reference formula of the sum. -/
inductive AddFlags where
  | draw
  | reference
deriving DecidableEq, Repr

/-- `STACK_RULE`: what `p = 1` does to the address register (42_ld_st.md R169, R170). -/
structure StackRule where
  /-- from the address register and the size, the address a store uses and the register keeps -/
  storeAt : Word → Word → Word
  /-- from the address a load has used and the size, what the register holds after it -/
  afterLoad : Word → Word → Word

/-- `LAYOUT`: the lowest bit of the opcode and of each encoding variable in the word (30_encoding.md R111 to R118). Their
widths are in the types of the fields. -/
structure Layout where
  opcode : Nat
  d : Nat
  s : Nat
  c : Nat
  m : Nat
  r : Nat
  l : Nat
  w : Nat
  p : Nat
  k : Nat
  /-- `s` of format `RI16`, the immediate -/
  imm : Nat
  /-- `P` of format `P24`, the whole payload -/
  payload : Nat
deriving DecidableEq, Repr

/-- The parameters that have a value in the spec (00_scope.md R6). -/
structure DecidedParameters where
  /-- `XLEN`: width of a general register and of a data word, in bits -/
  xlen : Nat
  /-- `ALEN`: width of a byte address -/
  alen : Nat
  /-- `NGPR`: number of general registers -/
  ngpr : Nat
  /-- `ILEN`: length of an instruction in bits -/
  ilen : Nat
  /-- `NCOPROC`: coprocessor slots -/
  ncoproc : Nat
  /-- `LAYOUT` -/
  layout : Layout
  /-- `MAP_GPR` -/
  mapGpr : BitVec 3
  /-- `MAP_IO` -/
  mapIo : BitVec 3
  /-- `MAP_SYS` -/
  mapSys : BitVec 3
  /-- `MAP_INFO` -/
  mapInfo : BitVec 3
  /-- `MAP_CO(k)` -/
  mapCo : BitVec 2 → BitVec 3
  /-- `ENDIAN` -/
  endian : ByteOrder
  /-- `LD_EXTEND` -/
  ldExtend : LoadExtend
  /-- `STACK_RULE` -/
  stackRule : StackRule
  /-- `ADDI_FLAGS` -/
  addiFlags : AddFlags

/-- `LAYOUT` as the spec decides it (30_encoding.md R111 to R118; spec decisions D7, D8). -/
@[reducible] def Config.layout : Layout :=
  { opcode := 24, d := 19, s := 14, c := 10, m := 7, r := 6, l := 5, w := 12, p := 11, k := 0, imm := 0, payload := 0 }

/-- The values of 00_scope.md R6 (spec decisions D1, D2, D7 to D9, D18, D19, D23, D24). -/
@[reducible] def Config.decided : DecidedParameters :=
  { xlen := 32, alen := 32, ngpr := 32, ilen := 32, ncoproc := 4
    layout := Config.layout
    mapGpr := 0#3, mapIo := 3#3, mapSys := 1#3, mapInfo := 2#3, mapCo := fun k => 4#3 + k.setWidth 3
    endian := .little, ldExtend := .zero
    stackRule := { storeAt := fun base size => base - size, afterLoad := fun address size => address + size }
    addiFlags := .draw }

/-- Length of an instruction in bytes (30_encoding.md R110). -/
def Config.instrBytes : Nat := Config.decided.ilen / 8

/-! ### Rows marked OPEN -/

/-- A run of 4-byte-aligned blocks of 4 bytes: the byte addresses from `4 * first` up to, not including,
`4 * (first + count)` (20_memory.md R51: `Text` and `Data` are unions of such blocks). -/
structure Machine.Span where
  first : Nat
  count : Nat
deriving DecidableEq, Repr

/-- `MEM`, the launch memory: which addresses hold program text, which hold data, and the initial bytes, by address
(20_memory.md R51). -/
structure LaunchMemory where
  text : List Machine.Span
  data : List Machine.Span
  bytes : List (Nat × Byte)
deriving DecidableEq, Repr

/-- The OPEN parameters of a run (00_scope.md R6; spec decisions D26, D32, D33). -/
structure LaunchParameters where
  /-- `RESET_VECTOR` -/
  resetVector : Word
  /-- `END_ADDR` -/
  endAddr : Word
  /-- `MEM` -/
  mem : LaunchMemory
deriving DecidableEq, Repr

/-- The OPEN parameters of the assembler and linker (00_scope.md R6; spec decisions D36, D37). -/
structure LinkParameters where
  /-- `PCREL_BASE`: the base a pc-relative value is measured from, given the address of the instruction that holds it -/
  pcrelBase : Word → Word
  /-- `HI_RULE`: the 16 bits that `HI` makes of a value -/
  hiRule : Word → BitVec 16

/-- The configuration record, all rows of 00_scope.md R6. -/
structure Parameters extends DecidedParameters, LaunchParameters, LinkParameters

/-- The record of the spec: its values where it has them, the OPEN rows as given. -/
def Parameters.of (launch : LaunchParameters) (link : LinkParameters) : Parameters :=
  { Config.decided, launch, link with }

/-! ### The launch of `State.reset` -/

/-- `RESET_VECTOR` of `State.reset`. OPEN in the spec (70_reset_and_hazards.md R230); 0x00001000 is the example value its
test programs use. DESIGN CHOICE, unsafe: log entry 2. -/
def Config.resetVector : Word := 0x00001000#32

/-- `END_ADDR` of `State.reset`. OPEN in the spec (70_reset_and_hazards.md R233). DESIGN CHOICE, unsafe: log entry 3. -/
def Config.endAddr : Word := 0x00000000#32

/-- The OPEN parameters of `State.reset`. They meet what 20_memory.md R62 asks of them: `Text` is the one block at
`RESET_VECTOR`, `Data` every other block, and the run ends where the address space does. No program is placed: no byte
of the block is listed. DESIGN CHOICE: log entries 2, 3 and 6. -/
def Config.resetLaunch : LaunchParameters :=
  let entry := Config.resetVector.toNat / 4
  { resetVector := Config.resetVector
    endAddr := Config.endAddr
    mem :=
      { text := [{ first := entry, count := 1 }]
        data := [{ first := 0, count := entry }, { first := entry + 1, count := 2 ^ 30 - (entry + 1) }]
        bytes := [] } }

/-! ### Bytes the launch does not give, and free values -/

/-- What a byte of memory that the launch does not give reads as (10_state.md R45: unspecified).
DESIGN CHOICE, unsafe: log entry 7. -/
def Config.blankByte : Byte := 0#8

/-- The draws of 00_scope.md R10: the free bit drawn at the `n`-th use. It has no body, so a proof holds for every
sequence of bits. Log entry 9. -/
opaque Config.draw : Nat → Bool

end Sys2Proof
end

