-- ==== Sys2Proof/Syntax.lean ====
section
/-!
DEFINITION. The instructions of Micron: one constructor for each of the 24 rows of spec/opcode_table.json (the 23 chart
rows of 30_encoding.md and the decoder-only row of 41_mov.md R154), with the names of its operands: condition, register
map, register index, size field, immediate.
-/

namespace Sys2Proof

/-- The index of a register in a map: a 5-bit field (30_encoding.md R113). -/
abbrev RegIx := BitVec 5

/-- The sixteen condition codes under their canonical short forms (30_encoding.md R98; `nv` is number 0 and `no` number
12, R99). -/
inductive Cond where
  | nv  -- 0, Never
  | c   -- 1, Carry, Below
  | z   -- 2, Zero, Equal
  | v   -- 3, Overflow
  | ce  -- 4, Carry/Equal, Below or Equal
  | lt  -- 5, Less
  | le  -- 6, Less or Equal
  | n   -- 7, Negative, Signed
  | p   -- 8, Positive, Not Signed
  | gt  -- 9, Greater Than
  | ge  -- 10, Greater or Equal
  | a   -- 11, Above
  | no  -- 12, Not Overflow
  | nz  -- 13, Not Zero, Not Equal
  | nc  -- 14, Not Carry, Above or Equal
  | al  -- 15, Always
deriving DecidableEq, Repr

/-- The register maps (10_state.md R35): general, system configuration, system information, I/O transfer, and the
registers of the coprocessor in one of four slots. -/
inductive RegMap where
  | gpr
  | sys
  | info
  | io
  | co (slot : BitVec 2)
deriving DecidableEq, Repr

/-- An instruction, one constructor per chart row. `d` and `s` are the first and second register fields; the map `m` is
that of the one operand that may lie outside map 0; `w` holds `lg(size)`. -/
inductive Instr where
  /-- `UND`; the payload is ignored (40_und_pause.md R140, R141). -/
  | und (p : BitVec 24)
  /-- `PAUSE <k>` (40_und_pause.md R142). -/
  | pause (k : BitVec 6)
  /-- `NOP`, a written form of `PAUSE 0` (40_und_pause.md R144). -/
  | nop
  /-- `MOV<c> <d>, <s>` between general registers, `r = 0` (41_mov.md R152). -/
  | movcReg (cc : Cond) (d s : RegIx)
  /-- The word of `movcReg` with `r = 1`; only the decoder meets it (41_mov.md R154). -/
  | movcRegR1 (cc : Cond) (d s : RegIx)
  /-- `MOV<c> GPR <d>, ANYREG <s>`: `s` is an index in map `m` (41_mov.md R155). -/
  | movcRead (cc : Cond) (d : RegIx) (m : RegMap) (s : RegIx)
  /-- `MOV<c> ANYREG <d>, GPR <s>`: `d` is an index in map `m` (41_mov.md R155). -/
  | movcWrite (cc : Cond) (m : RegMap) (d s : RegIx)
  /-- `MOV <d>, <s>` between general registers: `MOVAL` (41_mov.md R157). -/
  | movReg (d s : RegIx)
  /-- `MOV GPR <d>, ANYREG <s>` (41_mov.md R157). -/
  | movRead (d : RegIx) (m : RegMap) (s : RegIx)
  /-- `MOV ANYREG <d>, GPR <s>` (41_mov.md R157). -/
  | movWrite (m : RegMap) (d s : RegIx)
  /-- `MOVL<c> <d>, <s>`, `r = 0`, `m = 0` (41_mov.md R156). -/
  | movlReg (cc : Cond) (d s : RegIx)
  /-- `MOVL<c> GPR <d>, ANYREG <s>`, `r = 0` (41_mov.md R156). -/
  | movlRead (cc : Cond) (d : RegIx) (m : RegMap) (s : RegIx)
  /-- `MOVL<c> ANYREG <d>, GPR <s>`, `r = 1`, any map (41_mov.md R156). -/
  | movlWrite (cc : Cond) (m : RegMap) (d s : RegIx)
  /-- `LD <d>, <s>, <w>` (42_ld_st.md R167). -/
  | ld (d s : RegIx) (w : BitVec 2)
  /-- `ST <d>, <s>, <w>` (42_ld_st.md R168). -/
  | st (d s : RegIx) (w : BitVec 2)
  /-- `LD <d>, <s>`: size 4 (42_ld_st.md R165). -/
  | ldWord (d s : RegIx)
  /-- `ST <d>, <s>`: size 4 (42_ld_st.md R165). -/
  | stWord (d s : RegIx)
  /-- `PUSH <d>, <s>, <w>` (42_ld_st.md R169). -/
  | push (d s : RegIx) (w : BitVec 2)
  /-- `POP <d>, <s>, <w>` (42_ld_st.md R170). -/
  | pop (d s : RegIx) (w : BitVec 2)
  /-- `PUSH <d>, <s>`: size 4 (42_ld_st.md R165). -/
  | pushWord (d s : RegIx)
  /-- `POP <d>, <s>`: size 4 (42_ld_st.md R165). -/
  | popWord (d s : RegIx)
  /-- `PUSH <s>`: size 4, address register `r30` (42_ld_st.md R173). -/
  | pushShort (s : RegIx)
  /-- `POP <d>`: size 4, address register `r30` (42_ld_st.md R173). -/
  | popShort (d : RegIx)
  /-- `ADDI <d>, <s>` with a signed 16-bit immediate (43_addi.md R185, R186). -/
  | addi (d : RegIx) (imm : BitVec 16)
deriving DecidableEq, Repr

end Sys2Proof
end

