-- ==== Sys2Proof/Decode.lean ====
section
/-!
DEFINITION. The instruction word (30_encoding.md Part D: `LAYOUT`, spec decisions D7, D8, log entry 19), the
decoder (R120), the encoder (R102, R114 to R119), the expansion of the written short forms (R126) and the bytes of a
word in memory (R111, 20_memory.md R56).
-/

namespace Sys2Proof

/-- Why the decoder has no instruction for a word (60_exceptions.md R204). -/
inductive DecodeError where
  /-- The opcode has no surviving chart (30_encoding.md R123). -/
  | opcodeNotShown (op : BitVec 8)
  /-- A reserved payload bit is 1 (30_encoding.md R122). -/
  | reservedBits (w : Word)
deriving DecidableEq, Repr

/-- Why a stream of bytes does not begin with an instruction. -/
inductive BytesError where
  /-- Its first word has none. -/
  | word (e : DecodeError)
  /-- It has fewer than four bytes; a fetch always gives four. -/
  | truncated
deriving DecidableEq, Repr

/-- The number of a condition code: the value of the field `c` (30_encoding.md R98). -/
def Cond.number : Cond → BitVec 4
  | .nv => 0 | .c => 1 | .z => 2 | .v => 3 | .ce => 4 | .lt => 5 | .le => 6 | .n => 7
  | .p => 8 | .gt => 9 | .ge => 10 | .a => 11 | .no => 12 | .nz => 13 | .nc => 14 | .al => 15

/-- The condition code with a number (30_encoding.md R98). -/
def Cond.ofNumber (k : BitVec 4) : Cond :=
  match k.toNat with
  | 0 => .nv | 1 => .c | 2 => .z | 3 => .v | 4 => .ce | 5 => .lt | 6 => .le | 7 => .n
  | 8 => .p | 9 => .gt | 10 => .ge | 11 => .a | 12 => .no | 13 => .nz | 14 => .nc | _ => .al

/-- The number of a register map: the value of the field `m` (10_state.md R35; `MAP_*`; 1, 2 and 4 to 7 are the
spec's decision D9). -/
def RegMap.number : RegMap → BitVec 3
  | .gpr => Config.decided.mapGpr | .sys => Config.decided.mapSys | .info => Config.decided.mapInfo
  | .io => Config.decided.mapIo
  | .co slot => Config.decided.mapCo slot

/-- The register map with a number (10_state.md R35). -/
def RegMap.ofNumber (m : BitVec 3) : RegMap :=
  if m = Config.decided.mapGpr then .gpr
  else if m = Config.decided.mapSys then .sys
  else if m = Config.decided.mapInfo then .info
  else if m = Config.decided.mapIo then .io
  else if m = Config.decided.mapCo 0#2 then .co 0#2
  else if m = Config.decided.mapCo 1#2 then .co 1#2
  else if m = Config.decided.mapCo 2#2 then .co 2#2
  else .co 3#2

/-! ### Encoding -/

/-- A field placed with its lowest bit at bit `lo` of the word, every other bit 0 (30_encoding.md R112). -/
def place {n : Nat} (lo : Nat) (f : BitVec n) : Word := f.setWidth 32 <<< lo

/-- Format `RRC` (30_encoding.md R114): opcode 0x02, `d` 23:19, `s` 18:14, `c` 13:10, `m` 9:7, `r` 6, `l` 5, 4:0 zero. -/
def encodeRRC (d s : RegIx) (cc : Cond) (m : RegMap) (r l : BitVec 1) : Word :=
  place Config.decided.layout.opcode 0x02#8 ||| place Config.decided.layout.d d ||| place Config.decided.layout.s s |||
    place Config.decided.layout.c cc.number ||| place Config.decided.layout.m m.number |||
    place Config.decided.layout.r r ||| place Config.decided.layout.l l

/-- Format `RRW` (30_encoding.md R115): opcode 0x03 or 0x04, `d` 23:19, `s` 18:14, `w` 13:12, `p` 11, 10:0 zero. -/
def encodeRRW (op : BitVec 8) (d s : RegIx) (w : BitVec 2) (p : BitVec 1) : Word :=
  place Config.decided.layout.opcode op ||| place Config.decided.layout.d d ||| place Config.decided.layout.s s |||
    place Config.decided.layout.w w ||| place Config.decided.layout.p p

/-- Format `K6` (30_encoding.md R116): opcode 0x01, 23:6 zero, `k` 5:0. -/
def encodeK6 (k : BitVec 6) : Word :=
  place Config.decided.layout.opcode 0x01#8 ||| place Config.decided.layout.k k

/-- Format `RI16` (30_encoding.md R117): opcode 0x08, `d` 23:19, 18:16 zero, the immediate in two's complement 15:0
(R119). -/
def encodeRI16 (d : RegIx) (imm : BitVec 16) : Word :=
  place Config.decided.layout.opcode 0x08#8 ||| place Config.decided.layout.d d ||| place Config.decided.layout.imm imm

/-- Format `P24` (30_encoding.md R118): opcode 0x00, `P` 23:0. -/
def encodeP24 (p : BitVec 24) : Word :=
  place Config.decided.layout.opcode 0x00#8 ||| place Config.decided.layout.payload p

/-- The general register the one-operand forms of `PUSH` and `POP` use as the address register (42_ld_st.md R173). -/
def stackReg : RegIx := 30#5

/-- The size field of the forms written without a size: size 4, field value 2 (20_memory.md R59, 90_conflicts.md C3). -/
def wordField : BitVec 2 := 2#2

/-- The word of an instruction: the encoding variables its chart row sets (30_encoding.md R102, R126), in their fields. -/
def encode : Instr → Word
  | .und p => encodeP24 p
  | .pause k => encodeK6 k
  | .nop => encodeK6 0#6
  | .movcReg cc d s => encodeRRC d s cc .gpr 0#1 0#1
  | .movcRegR1 cc d s => encodeRRC d s cc .gpr 1#1 0#1
  | .movcRead cc d m s => encodeRRC d s cc m 0#1 0#1
  | .movcWrite cc m d s => encodeRRC d s cc m 1#1 0#1
  | .movReg d s => encodeRRC d s .al .gpr 0#1 0#1
  | .movRead d m s => encodeRRC d s .al m 0#1 0#1
  | .movWrite m d s => encodeRRC d s .al m 1#1 0#1
  | .movlReg cc d s => encodeRRC d s cc .gpr 0#1 1#1
  | .movlRead cc d m s => encodeRRC d s cc m 0#1 1#1
  | .movlWrite cc m d s => encodeRRC d s cc m 1#1 1#1
  | .ld d s w => encodeRRW 0x03#8 d s w 0#1
  | .st d s w => encodeRRW 0x04#8 d s w 0#1
  | .ldWord d s => encodeRRW 0x03#8 d s wordField 0#1
  | .stWord d s => encodeRRW 0x04#8 d s wordField 0#1
  | .push d s w => encodeRRW 0x04#8 d s w 1#1
  | .pop d s w => encodeRRW 0x03#8 d s w 1#1
  | .pushWord d s => encodeRRW 0x04#8 d s wordField 1#1
  | .popWord d s => encodeRRW 0x03#8 d s wordField 1#1
  | .pushShort s => encodeRRW 0x04#8 stackReg s wordField 1#1
  | .popShort d => encodeRRW 0x03#8 d stackReg wordField 1#1
  | .addi d imm => encodeRI16 d imm

/-- The row the decoder gives for the word of a row (30_encoding.md R126, R127; the rows with `decode_row: true` of
spec/opcode_table.json are their own core): a written short form becomes the canonical row it abbreviates. -/
def Instr.core : Instr → Instr
  | .und p => .und p
  | .pause k => .pause k
  | .nop => .pause 0#6
  | .movcReg cc d s => .movcReg cc d s
  | .movcRegR1 cc d s => .movcRegR1 cc d s
  | .movcRead cc d m s => .movcRead cc d m s
  | .movcWrite cc m d s => .movcWrite cc m d s
  | .movReg d s => .movcReg .al d s
  | .movRead d m s => .movcRead .al d m s
  | .movWrite m d s => .movcWrite .al m d s
  | .movlReg cc d s => .movlReg cc d s
  | .movlRead cc d m s => .movlRead cc d m s
  | .movlWrite cc m d s => .movlWrite cc m d s
  | .ld d s w => .ld d s w
  | .st d s w => .st d s w
  | .ldWord d s => .ld d s wordField
  | .stWord d s => .st d s wordField
  | .push d s w => .push d s w
  | .pop d s w => .pop d s w
  | .pushWord d s => .push d s wordField
  | .popWord d s => .pop d s wordField
  | .pushShort s => .push stackReg s wordField
  | .popShort d => .pop d stackReg wordField
  | .addi d imm => .addi d imm

/-! ### Decoding -/

/-- The opcode, `W[31:24]` (30_encoding.md R111). -/
def opcodeOf (w : Word) : BitVec 8 := w.extractLsb' Config.decided.layout.opcode 8

/-- The first register field, `W[23:19]` (30_encoding.md R113). -/
def fieldD (w : Word) : RegIx := w.extractLsb' Config.decided.layout.d 5

/-- The second register field, `W[18:14]` (30_encoding.md R113). -/
def fieldS (w : Word) : RegIx := w.extractLsb' Config.decided.layout.s 5

/-- Opcode 0x02 cut into its fields, and the row they belong to (30_encoding.md R114; 41_mov.md R150, R154; first fit
over the rows of spec/opcode_table.json). -/
def decodeRRC (w : Word) : Instr :=
  let d := fieldD w
  let s := fieldS w
  let cc := Cond.ofNumber (w.extractLsb' Config.decided.layout.c 4)
  let m := RegMap.ofNumber (w.extractLsb' Config.decided.layout.m 3)
  let r := w.extractLsb' Config.decided.layout.r 1
  let l := w.extractLsb' Config.decided.layout.l 1
  if l = 1#1 then
    if r = 1#1 then .movlWrite cc m d s
    else if m = .gpr then .movlReg cc d s
    else .movlRead cc d m s
  else
    if m = .gpr then (if r = 1#1 then .movcRegR1 cc d s else .movcReg cc d s)
    else (if r = 1#1 then .movcWrite cc m d s else .movcRead cc d m s)

/-- The bit `p` of format `RRW`, `W[11]` (30_encoding.md R115). -/
def fieldP (w : Word) : BitVec 1 := w.extractLsb' Config.decided.layout.p 1

/-- The size field of format `RRW`, `W[13:12]` (30_encoding.md R115). -/
def fieldW (w : Word) : BitVec 2 := w.extractLsb' Config.decided.layout.w 2

/-- The decoder, total on every word (30_encoding.md R120). -/
def decodeWord (w : Word) : Except DecodeError Instr :=
  match (opcodeOf w).toNat with
  | 0x00 => .ok (.und (w.extractLsb' Config.decided.layout.payload 24))
  | 0x01 =>
    if w.extractLsb' 6 18 ≠ 0#18 then .error (.reservedBits w)
    else .ok (.pause (w.extractLsb' Config.decided.layout.k 6))
  | 0x02 =>
    if w.extractLsb' 0 5 ≠ 0#5 then .error (.reservedBits w)
    else .ok (decodeRRC w)
  | 0x03 =>
    if w.extractLsb' 0 11 ≠ 0#11 then .error (.reservedBits w)
    else .ok (if fieldP w = 1#1 then .pop (fieldD w) (fieldS w) (fieldW w) else .ld (fieldD w) (fieldS w) (fieldW w))
  | 0x04 =>
    if w.extractLsb' 0 11 ≠ 0#11 then .error (.reservedBits w)
    else .ok (if fieldP w = 1#1 then .push (fieldD w) (fieldS w) (fieldW w) else .st (fieldD w) (fieldS w) (fieldW w))
  | 0x08 =>
    if w.extractLsb' 16 3 ≠ 0#3 then .error (.reservedBits w)
    else .ok (.addi (fieldD w) (w.extractLsb' Config.decided.layout.imm 16))
  | _ => .error (.opcodeNotShown (opcodeOf w))

/-! ### Bytes of a word -/

/-- The value of bytes from the lowest address up, little-endian (20_memory.md R54; spec decision D24), zero-extended
to 32 bits when there are fewer than four. -/
def leWord : List Byte → Word
  | [] => 0#32
  | b :: bs => (leWord bs <<< 8) ||| b.setWidth 32

/-- The low `n` bytes of a word, lowest address first: byte `i` is `v[8i+7:8i]` (20_memory.md R54, R58). -/
def leBytes : Nat → Word → List Byte
  | 0, _ => []
  | n + 1, v => v.setWidth 8 :: leBytes n (v >>> 8)

/-- The value of the bytes of an access, lowest address first (20_memory.md R54: `ENDIAN`). -/
def wordOfBytes (bs : List Byte) : Word :=
  match Config.decided.endian with
  | .little => leWord bs
  | .big => leWord bs.reverse

/-- The bytes of an access of `n` bytes that stores the low bits of a word, lowest address first (20_memory.md R54:
`ENDIAN`). -/
def bytesOfWord (n : Nat) (v : Word) : List Byte :=
  match Config.decided.endian with
  | .little => leBytes n v
  | .big => (leBytes n v).reverse

/-- The decoder on a stream of bytes: the instruction and the bytes after it. Every surviving instruction is four bytes
(30_encoding.md R110). -/
def decodeBytes : List Byte → Except BytesError (Instr × List Byte)
  | b0 :: b1 :: b2 :: b3 :: rest =>
    match decodeWord (wordOfBytes [b0, b1, b2, b3]) with
    | .ok i => .ok (i, rest)
    | .error e => .error (.word e)
  | _ => .error .truncated

/-- The bytes of an instruction in memory, lowest address first (30_encoding.md R111). -/
def encodeBytes (i : Instr) : List Byte := bytesOfWord 4 (encode i)

/-- The instruction word whose low `nbits` bits are those of `w`, the bits above zero. -/
def tableWord (nbits w : Nat) : Word := BitVec.ofNat 32 (w % 2 ^ nbits)

/-- The instruction the decoder reads from a word of spec/opcode_table.json laid out as the hardware stores it. -/
def decodeTableWord (nbits w : Nat) : Option Instr :=
  match decodeBytes (bytesOfWord 4 (tableWord nbits w)) with
  | .ok (i, _) => some i
  | .error _ => none

end Sys2Proof
end

