-- ==== Sys2Proof/Machine/State.lean ====
section
/-!
DEFINITION. The state of the machine (10_state.md): 32 general registers, the instruction pointer, four flags, memory;
with them the launch parameters of 00_scope.md R6 and R11, which `step` reads and never writes (log entry 1), and the
model's counter of draws (log entry 9). The faults of 60_exceptions.md R201 and the refusals of R204. The launch state
(10_state.md R45, 70_reset_and_hazards.md R230) and the state after reset.
-/

namespace Sys2Proof.Machine

/-- The four flags the condition codes test (10_state.md R30). -/
structure Flags where
  /-- `C`, carry -/
  c : Bool
  /-- `Z`, zero -/
  z : Bool
  /-- `V`, overflow -/
  v : Bool
  /-- `N`, negative -/
  n : Bool
deriving DecidableEq, Repr

/-- The launch parameters that a step reads: which addresses of the launch memory `MEM` are `Text` and which `Data`
(20_memory.md R51), and `END_ADDR` (70_reset_and_hazards.md R233). Where the two lists overlap the block is `Text`, so
that `Text` and `Data` are disjoint (log entry 11). -/
structure Launch where
  text : List Span
  data : List Span
  endAddr : Word
deriving DecidableEq, Repr

/-- The bytes of memory that differ from `Config.blankByte`, by address, addresses rising (20_memory.md R50, R51). -/
abbrev Mem := List Host.Cell

/-- The state of the machine. -/
structure State where
  /-- `x[0]` to `x[31]` (10_state.md R20) -/
  regs : Vector Word Config.decided.ngpr
  /-- the instruction pointer, the address of the instruction being executed (10_state.md R24) -/
  pc : Word
  /-- `C`, `Z`, `V`, `N` (10_state.md R30) -/
  flags : Flags
  /-- the bytes of memory (20_memory.md R50) -/
  mem : Mem
  /-- launch parameters, unchanged by every step (00_scope.md R11; log entry 1) -/
  launch : Launch
  /-- the model's own: how many free bits have been drawn (00_scope.md R10; log entry 9) -/
  draws : Nat
deriving DecidableEq, Repr

/-- The closed list of faults (60_exceptions.md R201). Each is terminal and changes no state (R200): safe, since
nothing can be proved of what a handler would do. -/
inductive Fault where
  /-- Raised by `UND`, always (40_und_pause.md R140). Safe. -/
  | undefinedInstruction (pc : Word) (w : Word)
  /-- Raised by a data access of `LD`, `ST`, `PUSH`, `POP` whose address is not a multiple of its size
  (20_memory.md R55). Safe. -/
  | misalignedAccess (a : Word) (pc : Word)
  /-- Raised by a data access or an instruction fetch that touches an unmapped byte (20_memory.md R56 to R58). Safe. -/
  | accessFault (a : Word) (pc : Word)
deriving DecidableEq, Repr

/-- The closed list of refusals (60_exceptions.md R204): the spec has no meaning for the form. Each is safe. -/
inductive Refusal where
  /-- Raised by `exec`'s arm of an instruction that has no meaning yet; no arm raises it now. Safe. -/
  | notModelled (mnemonic : String)
  /-- Raised by the decoder: an opcode no surviving chart shows (30_encoding.md R123). Safe. -/
  | opcodeNotShown (op : BitVec 8)
  /-- Raised by the decoder: a reserved payload bit is 1 (30_encoding.md R122). Safe. -/
  | reservedBits (w : Word)
  /-- Raised by `MOVL<c>`: what `l = 1` means is in no source (41_mov.md R156). Safe. -/
  | movlUnmodelled (w : Word)
  /-- Raised by `MOV<c>` naming a register of map 1 to 7 (41_mov.md R155). Safe. -/
  | unmodelledMap (m : BitVec 3) (w : Word)
  /-- Raised by `LD`, `ST`, `PUSH`, `POP` with `w = 3` (42_ld_st.md R171). Safe. -/
  | sizeReserved (w : Word)
  /-- Raised by `PUSH`, `POP` with `d = s` (42_ld_st.md R172). Safe. -/
  | pushPopSameRegister (w : Word)
  /-- Raised by a store that touches `Text` (20_memory.md R58, R67). Safe. -/
  | storeToText (a : Word)
  /-- Raised by a fetch of a byte in `Data` (20_memory.md R56, R67). Safe. -/
  | fetchOutsideText (pc : Word)
  /-- Raised by `step` at `END_ADDR`: the run has ended and there is no step (60_exceptions.md R205 (1),
  70_reset_and_hazards.md R233; log entry 10). Safe. -/
  | runEnded (pc : Word)
deriving DecidableEq, Repr

/-- What a step reads of the OPEN parameters of a run (00_scope.md R6). -/
def LaunchParameters.launch (a : LaunchParameters) : Launch :=
  { text := a.mem.text, data := a.mem.data, endAddr := a.endAddr }

/-- The launch state (10_state.md R45, 70_reset_and_hazards.md R230): `pc` at `RESET_VECTOR`, any registers, any
flags, the launch memory. -/
def State.launchState (regs : Vector Word Config.decided.ngpr) (flags : Flags) (a : LaunchParameters) : State :=
  { regs := regs, pc := a.resetVector, flags := flags, mem := a.mem.bytes, launch := LaunchParameters.launch a, draws := 0 }

/-- The machine right after reset: the launch state with every unspecified value named. Registers and flags zero, the
launch parameters of `Config.resetLaunch`, no byte listed. DESIGN CHOICE: log entries 2 to 7, 9. -/
def State.reset : State :=
  State.launchState (Vector.replicate Config.decided.ngpr 0#32) { c := false, z := false, v := false, n := false }
    Config.resetLaunch

end Sys2Proof.Machine
end

