-- ==== Sys2Proof/Machine/Ops.lean ====
section
/-!
DEFINITION. The named operations over registers and memory: the pseudocode primitives of 00_scope.md R8. Stopping a step
(`raise`, `refuse`: 60_exceptions.md R200), register access, the bytes of memory, which addresses exist, `MemRead`
(20_memory.md R57), `MemWrite` (R58) and instruction fetch (R56).
-/

namespace Sys2Proof.Machine

/-- What an operation of the model answers. -/
abbrev Result (α : Type) := Host.Outcome α Fault Refusal

/-- An operation after another: a fault or a refusal of the first stops the step (00_scope.md R9). -/
def andThen {α β : Type} (r : Result α) (f : α → Result β) : Result β :=
  match r with
  | .next a => f a
  | .fault e => .fault e
  | .refused e => .refused e

/-- Taking an exception: `raise F(info)`. The source gives no vector, no saved register and no return instruction, so
there is no trap entry (60_exceptions.md R200, R207) and no return from one (R208): the step's outcome is the fault, and
no state is written. Spec decision D29, log entry 21. -/
def raise {α : Type} (f : Fault) : Result α := .fault f

/-- `refuse Q(info)`: the spec gives the form no meaning, and no state is written (00_scope.md R8, R9). -/
def refuse {α : Type} (q : Refusal) : Result α := .refused q

/-! ### Registers and the instruction pointer -/

/-- `x[i]` (00_scope.md R8). No register is hardwired (10_state.md R21). -/
def readReg (i : RegIx) (s : State) : Word := s.regs[i.toNat]'i.isLt

/-- `x[i] <- v` (00_scope.md R8). -/
def writeReg (i : RegIx) (v : Word) (s : State) : State := { s with regs := s.regs.set i.toNat v i.isLt }

/-- `pc <- pc + 4`, modulo `2^32` (10_state.md R25). -/
def advance (s : State) : State := { s with pc := s.pc + 4#32 }

/-! ### Bytes of memory -/

/-- The byte at an address: the listed one, or what an unlisted address reads as (log entry 7). -/
def Mem.read : Mem → Nat → Byte
  | [], _ => Config.blankByte
  | (k, v) :: m, a => if k = a then v else Mem.read m a

/-- A cell put before the first listed address that is not below it. -/
def Mem.insert (a : Nat) (b : Byte) : Mem → Mem
  | [] => [(a, b)]
  | (k, v) :: m => if k < a then (k, v) :: Mem.insert a b m else (a, b) :: (k, v) :: m

/-- The list without the cells of an address. -/
def Mem.erase (a : Nat) : Mem → Mem
  | [] => []
  | (k, v) :: m => if k = a then Mem.erase a m else (k, v) :: Mem.erase a m

/-- The byte at an address becomes `b`. Writing what an unlisted address reads as leaves the address unlisted. -/
def Mem.write (m : Mem) (a : Nat) (b : Byte) : Mem :=
  if b = Config.blankByte then Mem.erase a m else Mem.insert a b (Mem.erase a m)

/-- Every listed address is above `a`. -/
def Mem.above (a : Nat) (m : Mem) : Bool := m.all fun c => decide (a < c.1)

/-- The canonical form: addresses strictly rising and below `2^32`, no cell equal to what an unlisted address reads
as. -/
def Mem.wf : Mem → Bool
  | [] => true
  | (k, v) :: m => Mem.above k m && decide (k < 2 ^ 32) && v != Config.blankByte && Mem.wf m

/-- The address of byte `i` of an access at `a`, modulo `2^32`. An aligned access never wraps (20_memory.md R57). -/
def byteAddr (a : Word) (i : Nat) : Nat := (a + BitVec.ofNat 32 i).toNat

/-- The bytes at `a`, `a + 1`, ..., lowest address first. -/
def bytesAt (m : Mem) (a : Word) (n : Nat) : List Byte := (List.range n).map fun i => Mem.read m (byteAddr a i)

/-- The bytes at `a`, `a + 1`, ... become those of the list. -/
def writeBytes (m : Mem) (a : Word) : List Byte → Mem
  | [] => m
  | b :: bs => writeBytes (Mem.write m a.toNat b) (a + 1#32) bs

/-! ### Which addresses exist -/

/-- What an address is in the launch memory (20_memory.md R51). -/
inductive Kind where
  | text
  | data
  | unmapped
deriving DecidableEq, Repr

/-- The address lies in one of the span's blocks. -/
def Span.has (sp : Span) (a : Nat) : Bool := decide (sp.first ≤ a / 4) && decide (a / 4 < sp.first + sp.count)

/-- What an address is: `Text`, else `Data`, else unmapped (20_memory.md R51; log entry 11). -/
def Launch.kind (l : Launch) (a : Nat) : Kind :=
  if l.text.any (·.has a) then .text else if l.data.any (·.has a) then .data else .unmapped

/-- Some byte of an access of `n` bytes at `a` is of the kind. -/
def anyByte (l : Launch) (a : Word) (n : Nat) (k : Kind) : Bool :=
  (List.range n).any fun i => l.kind (byteAddr a i) == k

/-! ### Data accesses and fetch -/

/-- The number of bytes of a data access (20_memory.md R59). -/
inductive Size where
  | byte
  | half
  | word
deriving DecidableEq, Repr

/-- 1, 2 or 4 (20_memory.md R59). -/
def Size.bytes : Size → Nat
  | .byte => 1
  | .half => 2
  | .word => 4

/-- Natural alignment: `a mod n = 0` (20_memory.md R55; spec decision D25). -/
def aligned (a : Word) (sz : Size) : Bool := a.toNat % sz.bytes == 0

/-- `MemRead(a, n)`: misaligned, then unmapped, else the bytes, lowest address first (20_memory.md R57). -/
def memRead (a : Word) (sz : Size) (s : State) : Result (List Byte) :=
  if !aligned a sz then raise (.misalignedAccess a s.pc)
  else if anyByte s.launch a sz.bytes .unmapped then raise (.accessFault a s.pc)
  else .next (bytesAt s.mem a sz.bytes)

/-- `MemWrite(a, n, v)` with `v` the low bytes of a word: misaligned, then unmapped, then a byte of `Text`, else all the
bytes are written (20_memory.md R58, R67). -/
def memWrite (a : Word) (sz : Size) (v : Word) (s : State) : Result State :=
  if !aligned a sz then raise (.misalignedAccess a s.pc)
  else if anyByte s.launch a sz.bytes .unmapped then raise (.accessFault a s.pc)
  else if anyByte s.launch a sz.bytes .text then refuse (.storeToText a)
  else .next { s with mem := writeBytes s.mem a (bytesOfWord sz.bytes v) }

/-- Instruction fetch: the word of the four bytes at `pc`, all of them in `Text` (20_memory.md R56); unmapped before
`Data` (60_exceptions.md R205 (2)). `pc` is a multiple of 4 in every run (10_state.md R26; log entry 12). -/
def fetch (s : State) : Result Word :=
  if anyByte s.launch s.pc Config.instrBytes .unmapped then raise (.accessFault s.pc s.pc)
  else if anyByte s.launch s.pc Config.instrBytes .data then refuse (.fetchOutsideText s.pc)
  else .next (wordOfBytes (bytesAt s.mem s.pc Config.instrBytes))

/-- The instruction of a word, or the decoder's refusal (30_encoding.md R120, R122, R123). -/
def decodeFetched (w : Word) : Result Instr :=
  match decodeWord w with
  | .ok i => .next i
  | .error (.opcodeNotShown op) => refuse (.opcodeNotShown op)
  | .error (.reservedBits v) => refuse (.reservedBits v)

/-- The block of 4 bytes that holds an address. -/
def blockAt (a : Nat) : Span := { first := a / 4, count := 1 }

/-- A word placed at `pc` from outside the machine: its four bytes written, the blocks they lie in made `Text`, and the
end of the run moved past it when the run would end at `pc`. It stands for the load of a program (log entry 8). -/
def placeWord (w : Word) (s : State) : State :=
  { s with
    mem := writeBytes s.mem s.pc (bytesOfWord Config.instrBytes w)
    launch :=
      { s.launch with
        text := blockAt (byteAddr s.pc 0) :: blockAt (byteAddr s.pc 3) :: s.launch.text
        endAddr := if s.pc = s.launch.endAddr then s.pc + 4#32 else s.launch.endAddr } }

end Sys2Proof.Machine
end

