-- ==== Sys2Proof/Machine/Flags.lean ====
section
/-!
DEFINITION. The flags: what each condition code tests (10_state.md R32), and what `ADDI` leaves in them (43_addi.md
R187).
-/

namespace Sys2Proof.Machine

/-- `cond(c)`: the truth of a condition code under the flags (10_state.md R32; the formulas are the spec's decision D6,
log entry 18). -/
def condHolds (k : Cond) (f : Flags) : Bool :=
  match k with
  | .nv => false
  | .c => f.c
  | .z => f.z
  | .v => f.v
  | .ce => f.c || f.z
  | .lt => f.n != f.v
  | .le => f.z || f.n != f.v
  | .n => f.n
  | .p => !f.n
  | .gt => !f.z && f.n == f.v
  | .ge => f.n == f.v
  | .a => !f.c && !f.z
  | .no => !f.v
  | .nz => !f.z
  | .nc => !f.c
  | .al => true

/-- Four free bits, the draws numbered from `k` on (00_scope.md R10; 43_addi.md R187; log entry 9). -/
def drawFlags (k : Nat) : Flags :=
  { c := Config.draw k, z := Config.draw (k + 1), v := Config.draw (k + 2), n := Config.draw (k + 3) }

/-- The flags become draws, and the draws are used up (43_addi.md R187). -/
def writeDrawnFlags (s : State) : State := { s with flags := drawFlags s.draws, draws := s.draws + 4 }

/-- The customary flags of the sum of `a` and `b`, given by 43_addi.md R187 for reference only, for the other value of
`ADDI_FLAGS`: the drawn flags of the model cover them as they cover every other rule. -/
def referenceAddFlags (a b : Word) : Flags :=
  { c := decide (2 ^ 32 ≤ a.toNat + b.toNat)
    z := a + b == 0#32
    v := a.msb == b.msb && (a + b).msb != a.msb
    n := (a + b).msb }

/-- The flags after the sum of `a` and `b` by `ADDI` (43_addi.md R187: `ADDI_FLAGS`, spec decision D23): draws. -/
def writeAddFlags (a b : Word) (s : State) : State :=
  match Config.decided.addiFlags with
  | .draw => writeDrawnFlags s
  | .reference => { s with flags := referenceAddFlags a b }

end Sys2Proof.Machine
end

