-- ==== Sys2Proof/Machine/Operands.lean ====
section
/-!
DEFINITION. How the operand fields of an instruction are used: the size field (42_ld_st.md R171), the widening of a load
(R167, `LD_EXTEND`), the address updates of `PUSH` and `POP` (R169, R170, `STACK_RULE`), the immediate of `ADDI`
(43_addi.md R186).
-/

namespace Sys2Proof.Machine

/-- The size a field `w = lg(size)` names; 3 names none (42_ld_st.md R166, R171). -/
def Size.ofField (w : BitVec 2) : Option Size :=
  match w.toNat with
  | 0 => some .byte
  | 1 => some .half
  | 2 => some .word
  | _ => none

/-- The size in bytes as a word, for address arithmetic. -/
def Size.toWord (sz : Size) : Word := BitVec.ofNat 32 sz.bytes

/-- An operation with the size that `w` names; `w = 3` is refused, first of all tests (42_ld_st.md R171, R174). `enc` is
the instruction's word, for the record. -/
def withSize {α : Type} (w : BitVec 2) (enc : Word) (f : Size → Result α) : Result α :=
  match Size.ofField w with
  | some sz => f sz
  | none => refuse (.sizeReserved enc)

/-- The bytes loaded, widened to 32 bits: `zext_32` (42_ld_st.md R167; `LD_EXTEND`, spec decision D18). -/
def loadValue (bs : List Byte) : Word :=
  match Config.decided.ldExtend with
  | .zero => wordOfBytes bs
  | .sign => BitVec.ofInt 32 (Int.bmod (wordOfBytes bs).toNat (2 ^ (8 * bs.length)))

/-- The address `PUSH` stores at: the address register lowered by the size (42_ld_st.md R169; `STACK_RULE`, spec
decision D19). -/
def pushAddr (base : Word) (sz : Size) : Word := Config.decided.stackRule.storeAt base sz.toWord

/-- What `POP` leaves in the address register: the address raised by the size (42_ld_st.md R170; `STACK_RULE`, spec
decision D19). -/
def popNext (base : Word) (sz : Size) : Word := Config.decided.stackRule.afterLoad base sz.toWord

/-- `sext_32` of a 16-bit immediate (00_scope.md R8, 30_encoding.md R119; spec decision D35). -/
def sextImm (imm : BitVec 16) : Word := imm.signExtend 32

end Sys2Proof.Machine
end

