-- ==== Sys2Proof/Machine/Addi.lean ====
section
/-!
DEFINITION. `ADDI` (43_addi.md).
-/

namespace Sys2Proof.Machine

/-- `ADDI <d>, <s>`: the sign-extended immediate is added to `x[d]` modulo `2^32`, and the four flags become draws
(43_addi.md R186, R187; spec decisions D22, D23). -/
def execAddi (d : RegIx) (imm : BitVec 16) (st : State) : Result State :=
  .next (advance (writeAddFlags (readReg d st) (sextImm imm) (writeReg d (readReg d st + sextImm imm) st)))

end Sys2Proof.Machine
end

