-- ==== Sys2Proof/Machine/LdSt.lean ====
section
/-!
DEFINITION. `LD`, `ST`, `PUSH`, `POP` (42_ld_st.md).
-/

namespace Sys2Proof.Machine

/-- The refusal of `PUSH` and `POP` with one register in both fields (42_ld_st.md R172; spec decision D20). -/
def withTwoRegs {α : Type} (d s : RegIx) (enc : Word) (f : Result α) : Result α :=
  if d = s then refuse (.pushPopSameRegister enc) else f

/-- `LD <d>, <s>, <w>`: `x[d] <- zext_32(MemRead(x[s], sz))` (42_ld_st.md R167). -/
def execLd (d s : RegIx) (w : BitVec 2) (st : State) : Result State :=
  withSize w (encode (.ld d s w)) fun sz =>
    andThen (memRead (readReg s st) sz st) fun bs => .next (advance (writeReg d (loadValue bs) st))

/-- `ST <d>, <s>, <w>`: the low bytes of `x[s]` at `x[d]` (42_ld_st.md R168). -/
def execSt (d s : RegIx) (w : BitVec 2) (st : State) : Result State :=
  withSize w (encode (.st d s w)) fun sz =>
    andThen (memWrite (readReg d st) sz (readReg s st) st) fun st' => .next (advance st')

/-- `PUSH <d>, <s>, <w>`: the store at the lowered address, which `x[d]` then keeps (42_ld_st.md R169). -/
def execPush (d s : RegIx) (w : BitVec 2) (st : State) : Result State :=
  withSize w (encode (.push d s w)) fun sz =>
    withTwoRegs d s (encode (.push d s w)) <|
      andThen (memWrite (pushAddr (readReg d st) sz) sz (readReg s st) st) fun st' =>
        .next (advance (writeReg d (pushAddr (readReg d st) sz) st'))

/-- `POP <d>, <s>, <w>`: the load, then `x[s]` raised by the size (42_ld_st.md R170). -/
def execPop (d s : RegIx) (w : BitVec 2) (st : State) : Result State :=
  withSize w (encode (.pop d s w)) fun sz =>
    withTwoRegs d s (encode (.pop d s w)) <|
      andThen (memRead (readReg s st) sz st) fun bs =>
        .next (advance (writeReg s (popNext (readReg s st) sz) (writeReg d (loadValue bs) st)))

/-- `LD <d>, <s>`: size 4 (42_ld_st.md R167). -/
def execLdWord (d s : RegIx) (st : State) : Result State := execLd d s wordField st

/-- `ST <d>, <s>`: size 4 (42_ld_st.md R168). -/
def execStWord (d s : RegIx) (st : State) : Result State := execSt d s wordField st

/-- `PUSH <d>, <s>`: size 4 (42_ld_st.md R169). -/
def execPushWord (d s : RegIx) (st : State) : Result State := execPush d s wordField st

/-- `POP <d>, <s>`: size 4 (42_ld_st.md R170). -/
def execPopWord (d s : RegIx) (st : State) : Result State := execPop d s wordField st

/-- `PUSH <s>`: `PUSH r30, <s>, word` (42_ld_st.md R169, R173). -/
def execPushShort (s : RegIx) (st : State) : Result State := execPush stackReg s wordField st

/-- `POP <d>`: `POP <d>, r30, word` (42_ld_st.md R170, R173; 90_conflicts.md C2). -/
def execPopShort (d : RegIx) (st : State) : Result State := execPop d stackReg wordField st

end Sys2Proof.Machine
end

