-- ==== Sys2Proof/Machine/Mov.lean ====
section
/-!
DEFINITION. `MOV<c>`, `MOV`, `MOVL<c>` (41_mov.md).
-/

namespace Sys2Proof.Machine

/-- The copy of a condition: `if cond(c) then x[d] <- x[s]`, then the next word (41_mov.md R152, R153; spec decision
D14). -/
def condMove (cc : Cond) (d s : RegIx) (st : State) : Result State :=
  .next (advance (if condHolds cc st.flags then writeReg d (readReg s st) st else st))

/-- `MOV<c>` with its map: a map other than 0 is refused, whatever the condition (41_mov.md R153, R155; spec decision
D15); `enc` is the instruction's word. -/
def movMapped (cc : Cond) (m : RegMap) (d s : RegIx) (enc : Word) (st : State) : Result State :=
  if m = .gpr then condMove cc d s st else refuse (.unmodelledMap m.number enc)

/-- `MOV<c> <d>, <s>` between general registers (41_mov.md R152). -/
def execMovcReg (cc : Cond) (d s : RegIx) (st : State) : Result State :=
  movMapped cc .gpr d s (encode (.movcReg cc d s)) st

/-- The same with `r = 1`: `r` makes no difference when `m = 0` (41_mov.md R154). -/
def execMovcRegR1 (cc : Cond) (d s : RegIx) (st : State) : Result State :=
  movMapped cc .gpr d s (encode (.movcRegR1 cc d s)) st

/-- `MOV<c>` reading a register of another map (41_mov.md R155). -/
def execMovcRead (cc : Cond) (d : RegIx) (m : RegMap) (s : RegIx) (st : State) : Result State :=
  movMapped cc m d s (encode (.movcRead cc d m s)) st

/-- `MOV<c>` writing a register of another map (41_mov.md R155). -/
def execMovcWrite (cc : Cond) (m : RegMap) (d s : RegIx) (st : State) : Result State :=
  movMapped cc m d s (encode (.movcWrite cc m d s)) st

/-- `MOV` between general registers: `MOVAL` (41_mov.md R157). -/
def execMovReg (d s : RegIx) (st : State) : Result State := execMovcReg .al d s st

/-- `MOV` reading another map: `MOVAL` (41_mov.md R157). -/
def execMovRead (d : RegIx) (m : RegMap) (s : RegIx) (st : State) : Result State := execMovcRead .al d m s st

/-- `MOV` writing another map: `MOVAL` (41_mov.md R157). -/
def execMovWrite (m : RegMap) (d s : RegIx) (st : State) : Result State := execMovcWrite .al m d s st

/-- `MOVL<c>`, registers: refused, before anything else is looked at (41_mov.md R156; spec decision D16). -/
def execMovlReg (cc : Cond) (d s : RegIx) (_st : State) : Result State :=
  refuse (.movlUnmodelled (encode (.movlReg cc d s)))

/-- `MOVL<c>` reading another map: refused (41_mov.md R156; spec decision D16). -/
def execMovlRead (cc : Cond) (d : RegIx) (m : RegMap) (s : RegIx) (_st : State) : Result State :=
  refuse (.movlUnmodelled (encode (.movlRead cc d m s)))

/-- `MOVL<c>` writing another map: refused (41_mov.md R156; spec decision D16). -/
def execMovlWrite (cc : Cond) (m : RegMap) (d s : RegIx) (_st : State) : Result State :=
  refuse (.movlUnmodelled (encode (.movlWrite cc m d s)))

end Sys2Proof.Machine
end

