-- ==== Sys2Proof/Machine/UndPause.lean ====
section
/-!
DEFINITION. `UND`, `PAUSE`, `NOP` (40_und_pause.md).
-/

namespace Sys2Proof.Machine

/-- `UND`: always the undefined-instruction fault; the payload is only recorded (40_und_pause.md R140, R141; spec
decision D12). -/
def execUnd (p : BitVec 24) (s : State) : Result State := raise (.undefinedInstruction s.pc (encode (.und p)))

/-- `PAUSE <k>`: no architectural effect for any `k`, one step (40_und_pause.md R142, R143; spec decision D13). -/
def execPause (_k : BitVec 6) (s : State) : Result State := .next (advance s)

/-- `NOP`: `PAUSE 0` (40_und_pause.md R144). -/
def execNop (s : State) : Result State := execPause 0#6 s

end Sys2Proof.Machine
end

