-- ==== Sys2Proof/Machine/Dispatch.lean ====
section
/-!
DEFINITION. The meaning of each instruction: one arm per constructor of `Instr`.
-/

namespace Sys2Proof.Machine

def exec (i : Instr) (s : State) : Host.Outcome State Fault Refusal :=
  match i with
  | .und p => Sys2Proof.Machine.execUnd p s
  | .pause k => Sys2Proof.Machine.execPause k s
  | .nop => Sys2Proof.Machine.execNop s
  | .movcReg cc rd rs => Sys2Proof.Machine.execMovcReg cc rd rs s
  | .movcRegR1 cc rd rs => Sys2Proof.Machine.execMovcRegR1 cc rd rs s
  | .movcRead cc rd m rs => Sys2Proof.Machine.execMovcRead cc rd m rs s
  | .movcWrite cc m rd rs => Sys2Proof.Machine.execMovcWrite cc m rd rs s
  | .movReg rd rs => Sys2Proof.Machine.execMovReg rd rs s
  | .movRead rd m rs => Sys2Proof.Machine.execMovRead rd m rs s
  | .movWrite m rd rs => Sys2Proof.Machine.execMovWrite m rd rs s
  | .movlReg cc rd rs => Sys2Proof.Machine.execMovlReg cc rd rs s
  | .movlRead cc rd m rs => Sys2Proof.Machine.execMovlRead cc rd m rs s
  | .movlWrite cc m rd rs => Sys2Proof.Machine.execMovlWrite cc m rd rs s
  | .ld rd rs w => Sys2Proof.Machine.execLd rd rs w s
  | .st rd rs w => Sys2Proof.Machine.execSt rd rs w s
  | .ldWord rd rs => Sys2Proof.Machine.execLdWord rd rs s
  | .stWord rd rs => Sys2Proof.Machine.execStWord rd rs s
  | .push rd rs w => Sys2Proof.Machine.execPush rd rs w s
  | .pop rd rs w => Sys2Proof.Machine.execPop rd rs w s
  | .pushWord rd rs => Sys2Proof.Machine.execPushWord rd rs s
  | .popWord rd rs => Sys2Proof.Machine.execPopWord rd rs s
  | .pushShort rs => Sys2Proof.Machine.execPushShort rs s
  | .popShort rd => Sys2Proof.Machine.execPopShort rd s
  | .addi rd imm => Sys2Proof.Machine.execAddi rd imm s

end Sys2Proof.Machine
end

