-- ==== Sys2Proof/Machine/Step.lean ====
section
/-!
DEFINITION. One step of the machine (00_scope.md R9, 60_exceptions.md R205): the end of the run, fetch, decode, execute.
Placing one instruction where the next step fetches.
-/

namespace Sys2Proof.Machine

/-- One step. At `END_ADDR` the run has ended: no fetch, no step (70_reset_and_hazards.md R233, 60_exceptions.md R205
(1); log entry 10). -/
def step (s : State) : Host.Outcome State Fault Refusal :=
  if s.pc = s.launch.endAddr then refuse (.runEnded s.pc)
  else andThen (fetch s) fun w => andThen (decodeFetched w) fun i => exec i s

/-- `s` with an instruction word of spec/opcode_table.json where `step` fetches next: at `pc`, in `Text` (log entry
8). -/
def State.withFetchWord (s : State) (nbits w : Nat) : State := placeWord (tableWord nbits w) s

end Sys2Proof.Machine
end

