-- ==== Sys2Proof/Machine/AsmOperand.lean ====
section
/-!
DEFINITION. The operands of the assembler (30_encoding.md Parts A and B): operand kinds, register texts, immediate ranges,
sizes and widths, symbols, relocations, jump offsets and condition short forms. Nothing here is read by `step`: the
machine sees only the words (R92, R126).
-/

namespace Sys2Proof.Asm

/-- The seventeen operand kinds (30_encoding.md R80). -/
inductive OperandKind where
  | gpr | sgpr | ior | anyreg
  | uimm16 | simm16 | pcrel16 | off20 | uimm32 | simm32
  | bitw | bytesz
  | absimm2 | absimm5 | absimm6 | absimm8
  | cc
deriving DecidableEq, Repr

/-! ### Registers -/

/-- A non-empty run of decimal digits (30_encoding.md R81). The source shows no leading-zero rule; that leading zeros are
taken and change nothing (`r007` is `r7`) is the MODEL's choice. DESIGN CHOICE: log entry 42. -/
def parseNat (cs : List Char) : Option Nat :=
  if cs = [] then none
  else cs.foldl (fun acc ch => acc.bind fun k => if ch.isDigit then some (10 * k + (ch.toNat - 48)) else none) (some 0)

/-- A register index, 0 to 31 (30_encoding.md R81; 10_state.md R20). -/
def parseIx (cs : List Char) : Option RegIx :=
  (parseNat cs).bind fun k => if k < 32 then some (BitVec.ofNat 5 k) else none

/-- A register text of any map (30_encoding.md R81, R83 to R87): `r<n>`, `sys<n>` or `sysctl`, `info<n>`, `io<n>`,
`co<k>r<n>`. No coprocessor name is accepted but this one (R87). Lower case only: DESIGN CHOICE, log entry 42. -/
def parseReg : List Char → Option (RegMap × RegIx)
  | 'r' :: ds => (parseIx ds).map fun i => (.gpr, i)
  | ['s', 'y', 's', 'c', 't', 'l'] => some (.sys, 0#5)
  | 's' :: 'y' :: 's' :: ds => (parseIx ds).map fun i => (.sys, i)
  | 'i' :: 'n' :: 'f' :: 'o' :: ds => (parseIx ds).map fun i => (.info, i)
  | 'i' :: 'o' :: ds => (parseIx ds).map fun i => (.io, i)
  | 'c' :: 'o' :: k :: 'r' :: ds =>
    if k.isDigit = true ∧ k.toNat - 48 < Config.decided.ncoproc then
      (parseIx ds).map fun i => (.co (BitVec.ofNat 2 (k.toNat - 48)), i)
    else none
  | _ => none

/-- What a register's text begins with (10_state.md R35). -/
def RegMap.text : RegMap → List Char
  | .gpr => ['r']
  | .sys => ['s', 'y', 's']
  | .info => ['i', 'n', 'f', 'o']
  | .io => ['i', 'o']
  | .co k => ['c', 'o'] ++ Nat.toDigits 10 k.toNat ++ ['r']

/-- A register's text. -/
def printReg (m : RegMap) (i : RegIx) : List Char := RegMap.text m ++ Nat.toDigits 10 i.toNat

/-! ### Immediates, sizes and widths -/

/-- Bits of the field of an immediate kind. -/
def OperandKind.bits : OperandKind → Nat
  | .uimm16 | .simm16 | .pcrel16 => 16
  | .off20 => 20
  | .uimm32 | .simm32 => 32
  | .bitw | .absimm5 => 5
  | .bytesz | .absimm2 => 2
  | .absimm6 => 6
  | .absimm8 => 8
  | .gpr | .sgpr | .ior | .anyreg => 5
  | .cc => 4

/-- The integers a kind takes: from the first up to, not including, the second (30_encoding.md R88; `OFF20` R94, `BITW`
R96, `BYTESZ` R97 have their own constraints besides). -/
def OperandKind.range : OperandKind → Option (Int × Int)
  | .uimm16 => some (0, 2 ^ 16)
  | .uimm32 => some (0, 2 ^ 32)
  | .absimm2 => some (0, 2 ^ 2)
  | .absimm5 => some (0, 2 ^ 5)
  | .absimm6 => some (0, 2 ^ 6)
  | .absimm8 => some (0, 2 ^ 8)
  | .simm16 | .pcrel16 => some (-2 ^ 15, 2 ^ 15)
  | .simm32 => some (-2 ^ 31, 2 ^ 31)
  | .off20 => some (-2 ^ 21, 2 ^ 21)
  | .bitw => some (1, 33)
  | .bytesz => some (1, 5)
  | .gpr | .sgpr | .ior | .anyreg | .cc => none

/-- The integer lies in the kind's range (30_encoding.md R88). -/
def OperandKind.admits (k : OperandKind) (n : Int) : Bool :=
  match k.range with
  | some (lo, hi) => decide (lo ≤ n) && decide (n < hi)
  | none => false

/-- The synthetic constants (30_encoding.md R95). -/
inductive SizeConst where
  | byte
  | half
  | word
deriving DecidableEq, Repr

/-- As a width in bits: 8, 16, 32 (30_encoding.md R96). -/
def SizeConst.width : SizeConst → Nat
  | .byte => 8
  | .half => 16
  | .word => 32

/-- As a size in bytes: 1, 2, 4 (30_encoding.md R97). -/
def SizeConst.size : SizeConst → Nat
  | .byte => 1
  | .half => 2
  | .word => 4

/-- The field of a `BITW` operand: 1 to 32, with 32 encoded as 0 (30_encoding.md R96). -/
def bitwField (n : Int) : Option (BitVec 5) :=
  if OperandKind.bitw.admits n then some (BitVec.ofInt 5 n) else none

/-- The width a `BITW` field names: 0 is 32 (30_encoding.md R96). -/
def bitwWidth (f : BitVec 5) : Nat := if f = 0#5 then 32 else f.toNat

/-- The field of a `BYTESZ` operand: `lg` of 1, 2 or 4 (30_encoding.md R97). -/
def byteszField (n : Int) : Option (BitVec 2) :=
  if n = 1 then some 0#2 else if n = 2 then some 1#2 else if n = 4 then some 2#2 else none

/-- The field of an `OFF20` operand written as a byte offset: a signed 22-bit multiple of 4, the low two bits dropped
(30_encoding.md R94). -/
def off20Field (o : Int) : Option (BitVec 20) :=
  if OperandKind.off20.admits o ∧ o % 4 = 0 then some (BitVec.ofInt 20 (o / 4)) else none

/-- The bytes a jump moves by, from its base, with this field (30_encoding.md R94). -/
def off20Bytes (f : BitVec 20) : Int := 4 * f.toInt

/-! ### Symbols and relocations -/

/-- The modifiers `LO` and `HI` (30_encoding.md R91; 90_conflicts.md C4). -/
inductive Half where
  | lo
  | hi
deriving DecidableEq, Repr

/-- The relocations the source names (30_encoding.md R92). -/
inductive Reloc where
  /-- `R_MICRON_<n>` -/
  | abs (n : Nat)
  /-- `R_MICRON_LO16` -/
  | lo16
  /-- `R_MICRON_HI16` -/
  | hi16
  /-- `R_MICRON_PC16` -/
  | pc16
  /-- `R_MICRON_LOPC16` -/
  | lopc16
  /-- `R_MICRON_HIPC16` -/
  | hipc16
  /-- `R_MICRON_JMPOFF` -/
  | jmpoff
deriving DecidableEq, Repr

/-- The kind takes symbols: an immediate that is not absolute (30_encoding.md R89). -/
def OperandKind.takesSymbol : OperandKind → Bool
  | .uimm16 | .simm16 | .pcrel16 | .off20 | .uimm32 | .simm32 => true
  | _ => false

/-- The relocation of a symbol as written in an operand of the kind (30_encoding.md R92, R93, R94). A 32-bit pc-relative
one is named by no source and rejected (R92). In an `OFF20` operand `@pcrel`, `LO` and `HI` have no row: no source says
whether `<sym>@pcrel` is `R_MICRON_PC16`, `R_MICRON_JMPOFF` or rejected there, and the model rejects all three. DESIGN
CHOICE: log entry 14. -/
def relocOf (k : OperandKind) (h : Option Half) (pcrel : Bool) : Option Reloc :=
  if !k.takesSymbol then none
  else
    match k, h, pcrel || k == .pcrel16 with
    | .off20, none, false => some .jmpoff
    | .off20, _, _ => none
    | _, none, false => some (.abs k.bits)
    | _, some .lo, false => some .lo16
    | _, some .hi, false => some .hi16
    | .uimm32, none, true => none
    | .simm32, none, true => none
    | _, none, true => some .pc16
    | _, some .lo, true => some .lopc16
    | _, some .hi, true => some .hipc16

/-- A symbol's distance from the base of a pc-relative value (30_encoding.md R90; `PCREL_BASE` is OPEN, an argument). -/
def pcDistance (link : LinkParameters) (sym place : Word) : Word := sym - link.pcrelBase place

/-- The field value the linker puts for a symbol at address `sym` in an instruction at `place`; `none` is a link error
(30_encoding.md R89 to R94). An absolute address must fit the size of the field, a distance the signed range. -/
def relocValue (link : LinkParameters) (r : Reloc) (sym place : Word) : Option Nat :=
  match r with
  | .abs n => if sym.toNat < 2 ^ n then some sym.toNat else none
  | .lo16 => some (sym.toNat % 2 ^ 16)
  | .hi16 => some (link.hiRule sym).toNat
  | .pc16 =>
    if OperandKind.pcrel16.admits (pcDistance link sym place).toInt then some ((pcDistance link sym place).toNat % 2 ^ 16)
    else none
  | .lopc16 => some ((pcDistance link sym place).toNat % 2 ^ 16)
  | .hipc16 => some (link.hiRule (pcDistance link sym place)).toNat
  | .jmpoff => (off20Field (pcDistance link sym place).toInt).map (·.toNat)

/-! ### Operands as written -/

/-- An operand as written: a register, a shifted register `<reg> << <count>` (30_encoding.md R82), an integer, a synthetic
constant, or a symbol (with its address) and its modifiers. A shift count is an absolute immediate, so never a symbol. -/
inductive Written where
  | reg (m : RegMap) (i : RegIx)
  | shifted (m : RegMap) (i : RegIx) (count : Int)
  | int (n : Int)
  | const (k : SizeConst)
  | sym (addr : Word) (half : Option Half) (pcrel : Bool)
deriving DecidableEq, Repr

/-- The field value of an operand of a kind, in an instruction at `place`; `none` is an assembly or link error
(30_encoding.md R81 to R97). A shifted register has two values, the register's index, given here, and its count,
`shiftOf`; as for a register of any map, the second has a name of its own. -/
def fieldOf (link : LinkParameters) (k : OperandKind) (place : Word) : Written → Option Nat
  | .reg m i =>
    match k with
    | .gpr => if m = .gpr then some i.toNat else none
    | .ior => if m = .io then some i.toNat else none
    | .anyreg => some i.toNat
    | _ => none
  | .shifted m i n =>
    match k with
    | .sgpr => if m = .gpr ∧ OperandKind.absimm5.admits n = true then some i.toNat else none
    | _ => none
  | .int n =>
    match k with
    | .bitw => (bitwField n).map (·.toNat)
    | .bytesz => (byteszField n).map (·.toNat)
    | .off20 => (off20Field n).map (·.toNat)
    | _ => if k.admits n then some (n % 2 ^ k.bits).toNat else none
  | .const c =>
    match k with
    | .bitw => (bitwField c.width).map (·.toNat)
    | .bytesz => (byteszField c.size).map (·.toNat)
    | _ => none
  | .sym a h pcrel => (relocOf k h pcrel).bind fun r => relocValue link r a place

/-- The shift count of a shifted register: an `ABSIMM5`, 0 to 31 (30_encoding.md R82, R88). No surviving chart takes an
`SGPR`, so no source names the encoding variable it is assigned to. -/
def shiftOf : Written → Option (BitVec 5)
  | .shifted _ _ n => if OperandKind.absimm5.admits n then some (BitVec.ofInt 5 n) else none
  | .reg _ _ | .int _ | .const _ | .sym _ _ _ => none

/-! ### A shifted register as text -/

/-- The text without the blanks at its two ends. -/
def trimBlanks (cs : List Char) : List Char := ((cs.dropWhile (· == ' ')).reverse.dropWhile (· == ' ')).reverse

/-- What stands before and after the first `<<`. -/
def splitShift : List Char → Option (List Char × List Char)
  | '<' :: '<' :: rest => some ([], rest)
  | ch :: rest => (splitShift rest).map fun halves => (ch :: halves.1, halves.2)
  | [] => none

/-- The operand a text `<reg> << <count>` writes (30_encoding.md R82): a general register, the two characters, and a count
of 0 to 31. A text without `<<` is no `SGPR`, and blanks beside the `<<` mean nothing: DESIGN CHOICE, log entry 42. -/
def parseSgpr (cs : List Char) : Option Written :=
  (splitShift cs).bind fun halves =>
    (parseReg (trimBlanks halves.1)).bind fun reg =>
      (parseNat (trimBlanks halves.2)).bind fun n =>
        if reg.1 = .gpr ∧ OperandKind.absimm5.admits n = true then some (.shifted reg.1 reg.2 n) else none

/-! ### Condition short forms -/

/-- The table of condition short forms, thirty rows as the source gives them: short form, condition, canonical
(30_encoding.md R98). -/
def condTable : List (List Char × Cond × Bool) :=
  [("NV".toList, .nv, true), ("C".toList, .c, true), ("B".toList, .c, false), ("Z".toList, .z, true),
   ("EQ".toList, .z, false), ("V".toList, .v, true), ("O".toList, .v, false), ("CE".toList, .ce, true),
   ("BE".toList, .ce, false), ("LT".toList, .lt, true), ("LE".toList, .le, true), ("N".toList, .n, true),
   ("S".toList, .n, false), ("P".toList, .p, true), ("NS".toList, .p, false)] ++
  [("GT".toList, .gt, true), ("NLE".toList, .gt, false), ("GE".toList, .ge, true), ("NLT".toList, .ge, false),
   ("A".toList, .a, true), ("NBE".toList, .a, false), ("NCE".toList, .a, false), ("NV".toList, .no, true),
   ("NO".toList, .no, false), ("NZ".toList, .nz, true), ("NE".toList, .nz, false), ("NC".toList, .nc, true),
   ("NB".toList, .nc, false), ("AE".toList, .nc, false), ("AL".toList, .al, true)]

/-- The condition of a short form, written in capitals: the first row that has it, so that `NV` is Never and never Not
Overflow (30_encoding.md R99; 90_conflicts.md C1). -/
def parseCond (cs : List Char) : Option Cond := (condTable.find? fun row => row.1 == cs).map fun row => row.2.1

/-- The short form printed for a condition: the canonical one, with `NO` for 12 (30_encoding.md R99, R127). -/
def printCond : Cond → List Char
  | .nv => "NV".toList | .c => "C".toList | .z => "Z".toList | .v => "V".toList
  | .ce => "CE".toList | .lt => "LT".toList | .le => "LE".toList | .n => "N".toList
  | .p => "P".toList | .gt => "GT".toList | .ge => "GE".toList | .a => "A".toList
  | .no => "NO".toList | .nz => "NZ".toList | .nc => "NC".toList | .al => "AL".toList

end Sys2Proof.Asm
end

