-- ==== Sys2Proof/Machine/AsmChart.lean ====
section
/-!
DEFINITION. The five charts of the source as data, how an assembler reads a chart row (30_encoding.md Part C), which row it
takes (R106), and what a disassembler prints (R127).
-/

namespace Sys2Proof.Asm

/-- The encoding variables the charts name (30_encoding.md R112). -/
inductive Var where
  | d | s | c | m | r | l | w | p | k
  /-- the whole payload, `P` (30_encoding.md R103) -/
  | payload
deriving DecidableEq, Repr

/-- The right side of an assignment in the Special Payload Encoding column (30_encoding.md R100, R102). -/
inductive Val where
  | int (n : Nat)
  /-- `MAP(<v>)`: the map of the register written for `v` -/
  | mapOf (v : Var)
deriving DecidableEq, Repr

/-- A chart row (30_encoding.md R100). -/
structure Row where
  name : List Char
  /-- the mnemonic is written `NAME<c>` -/
  cond : Bool
  operands : List (OperandKind × Var)
  opcode : BitVec 8
  assigns : List (Var × Val)
  canonical : Bool
deriving DecidableEq, Repr

/-- The assignments `m=0, r=0, l=<l>`. -/
def regReg (l : Nat) : List (Var × Val) := [(.m, .int 0), (.r, .int 0), (.l, .int l)]

/-- The assignments `m=MAP(s), r=0, l=<l>`. -/
def readMap (l : Nat) : List (Var × Val) := [(.m, .mapOf .s), (.r, .int 0), (.l, .int l)]

/-- The assignments `m=MAP(d), r=1, l=<l>`. -/
def writeMap (l : Nat) : List (Var × Val) := [(.m, .mapOf .d), (.r, .int 1), (.l, .int l)]

/-- The charts `UND`, `PAUSE` and `MOV` (30_encoding.md, last section). -/
def chartsUpToMov : List Row :=
  [⟨"UND".toList, false, [], 0x00#8, [(.payload, .int 0)], true⟩,
   ⟨"PAUSE".toList, false, [(.absimm6, .k)], 0x01#8, [], true⟩,
   ⟨"NOP".toList, false, [], 0x01#8, [(.k, .int 0)], false⟩,
   ⟨"MOV".toList, true, [(.gpr, .d), (.gpr, .s)], 0x02#8, regReg 0, true⟩,
   ⟨"MOV".toList, true, [(.gpr, .d), (.anyreg, .s)], 0x02#8, readMap 0, true⟩,
   ⟨"MOV".toList, true, [(.anyreg, .d), (.gpr, .s)], 0x02#8, writeMap 0, true⟩,
   ⟨"MOV".toList, false, [(.gpr, .d), (.gpr, .s)], 0x02#8, regReg 0 ++ [(.c, .int 15)], false⟩,
   ⟨"MOV".toList, false, [(.gpr, .d), (.anyreg, .s)], 0x02#8, readMap 0 ++ [(.c, .int 15)], false⟩,
   ⟨"MOV".toList, false, [(.anyreg, .d), (.gpr, .s)], 0x02#8, writeMap 0 ++ [(.c, .int 15)], false⟩,
   ⟨"MOVL".toList, true, [(.gpr, .d), (.gpr, .s)], 0x02#8, regReg 1, true⟩,
   ⟨"MOVL".toList, true, [(.gpr, .d), (.anyreg, .s)], 0x02#8, readMap 1, true⟩,
   ⟨"MOVL".toList, true, [(.anyreg, .d), (.gpr, .s)], 0x02#8, writeMap 1, true⟩]

/-- The charts `LD`/`ST` and `ADDI` (30_encoding.md, last section). The last row of `POP` is read with `s=30` where the
source prints `d=30` (90_conflicts.md C2); the lost cells of `ADDI` are read as no assignment, canonical (43_addi.md
R185). -/
def chartsFromLd : List Row :=
  [⟨"LD".toList, false, [(.gpr, .d), (.gpr, .s), (.bytesz, .w)], 0x03#8, [(.p, .int 0)], true⟩,
   ⟨"ST".toList, false, [(.gpr, .d), (.gpr, .s), (.bytesz, .w)], 0x04#8, [(.p, .int 0)], true⟩,
   ⟨"LD".toList, false, [(.gpr, .d), (.gpr, .s)], 0x03#8, [(.p, .int 0), (.w, .int 4)], false⟩,
   ⟨"ST".toList, false, [(.gpr, .d), (.gpr, .s)], 0x04#8, [(.p, .int 0), (.w, .int 4)], false⟩,
   ⟨"PUSH".toList, false, [(.gpr, .d), (.gpr, .s), (.bytesz, .w)], 0x04#8, [(.p, .int 1)], true⟩,
   ⟨"POP".toList, false, [(.gpr, .d), (.gpr, .s), (.bytesz, .w)], 0x03#8, [(.p, .int 1)], true⟩,
   ⟨"PUSH".toList, false, [(.gpr, .d), (.gpr, .s)], 0x04#8, [(.p, .int 1), (.w, .int 4)], false⟩,
   ⟨"POP".toList, false, [(.gpr, .d), (.gpr, .s)], 0x03#8, [(.p, .int 1), (.w, .int 4)], false⟩,
   ⟨"PUSH".toList, false, [(.gpr, .s)], 0x04#8, [(.p, .int 1), (.w, .int 4), (.d, .int 30)], false⟩,
   ⟨"POP".toList, false, [(.gpr, .d)], 0x03#8, [(.p, .int 1), (.w, .int 4), (.s, .int 30)], false⟩,
   ⟨"ADDI".toList, false, [(.gpr, .d), (.simm16, .s)], 0x08#8, [], true⟩]

/-- The twenty-three chart rows in the source's order. -/
def charts : List Row := chartsUpToMov ++ chartsFromLd

/-! ### From a row to a word -/

/-- The lowest bit of an encoding variable in the word of an opcode (30_encoding.md R113 to R118). -/
def fieldPos (lay : Layout) (op : BitVec 8) : Var → Option Nat
  | .payload => if op = 0x00#8 then some lay.payload else none
  | .k => if op = 0x01#8 then some lay.k else none
  | .d => if op = 0x02#8 ∨ op = 0x03#8 ∨ op = 0x04#8 ∨ op = 0x08#8 then some lay.d else none
  | .s => if op = 0x08#8 then some lay.imm else if op = 0x02#8 ∨ op = 0x03#8 ∨ op = 0x04#8 then some lay.s else none
  | .c => if op = 0x02#8 then some lay.c else none
  | .m => if op = 0x02#8 then some lay.m else none
  | .r => if op = 0x02#8 then some lay.r else none
  | .l => if op = 0x02#8 then some lay.l else none
  | .w => if op = 0x03#8 ∨ op = 0x04#8 then some lay.w else none
  | .p => if op = 0x03#8 ∨ op = 0x04#8 then some lay.p else none

/-- A word with the variables in their fields; a variable the opcode does not have is an error (30_encoding.md R112). -/
def layOut (op : BitVec 8) : List (Var × Nat) → Option Word
  | [] => some (place Config.decided.layout.opcode op)
  | (v, n) :: rest =>
    (fieldPos Config.decided.layout op v).bind fun lo => (layOut op rest).map fun w => place lo (BitVec.ofNat 32 n) ||| w

/-- The field values of the operands of a row, in order; the numbers of operands must agree (30_encoding.md R102). -/
def operandFields (link : LinkParameters) (at' : Word) : List (OperandKind × Var) → List Written → Option (List (Var × Nat))
  | [], [] => some []
  | (k, v) :: ks, a :: as' =>
    (fieldOf link k at' a).bind fun n => (operandFields link at' ks as').map fun rest => (v, n) :: rest
  | _, _ => none

/-- The map number of the register written for a variable (30_encoding.md R84, R102). -/
def mapOfVar (v : Var) : List (OperandKind × Var) → List Written → Option Nat
  | (_, u) :: ks, a :: as' =>
    if u = v then
      (match a with
      | .reg m _ => some m.number.toNat
      | _ => none)
    else mapOfVar v ks as'
  | _, _ => none

/-- The field value of an assignment: `w` takes the operand-level size (30_encoding.md R102; 90_conflicts.md C3). -/
def assignField (ops : List (OperandKind × Var)) (args : List Written) : Var × Val → Option (Var × Nat)
  | (v, .int n) => if v = .w then (byteszField n).map fun f => (v, f.toNat) else some (v, n)
  | (v, .mapOf u) => (mapOfVar u ops args).map fun n => (v, n)

/-- The assignments of a row, all of them. -/
def assignFields (ops : List (OperandKind × Var)) (args : List Written) : List (Var × Val) → Option (List (Var × Nat))
  | [] => some []
  | x :: xs => (assignField ops args x).bind fun y => (assignFields ops args xs).map fun ys => y :: ys

/-- The condition the mnemonic of a row carries: `some none` for a row without `<c>` whose name it is
(30_encoding.md R101, R107). -/
def Row.matchName (row : Row) (mn : List Char) : Option (Option Cond) :=
  if row.cond then
    if row.name.isPrefixOf mn then (parseCond (mn.drop row.name.length)).map some else none
  else if row.name = mn then some none else none

/-- The word of a row for a mnemonic in capitals and its operands, in an instruction at `at'`. -/
def Row.assemble (link : LinkParameters) (row : Row) (mn : List Char) (args : List Written) (at' : Word) : Option Word :=
  (row.matchName mn).bind fun cc =>
    (operandFields link at' row.operands args).bind fun fs =>
      (assignFields row.operands args row.assigns).bind fun gs =>
        layOut row.opcode (fs ++ gs ++
          match cc with
          | some k => [(.c, k.number.toNat)]
          | none => [])

/-- The assembler: mnemonics in any case (30_encoding.md R101), the first chart row that fits (R106). -/
def assemble (link : LinkParameters) (mn : List Char) (args : List Written) (at' : Word) : Option Word :=
  charts.findSome? fun row => row.assemble link (mn.map Char.toUpper) args at'

/-! ### Printing -/

/-- The size a field names, as written (30_encoding.md R127); field 3 cannot be written (R97). -/
def writtenSize (w : BitVec 2) : Option Written :=
  match w.toNat with
  | 0 => some (.int 1)
  | 1 => some (.int 2)
  | 2 => some (.int 4)
  | _ => none

/-- An instruction as its chart row writes it: the mnemonic and the operands. The decoder-only row is written like the
row it shares its meaning with (41_mov.md R154); no row writes `w = 3`. -/
def writtenForm : Instr → Option (List Char × List Written)
  | .und _ => some ("UND".toList, [])
  | .pause k => some ("PAUSE".toList, [.int k.toNat])
  | .nop => some ("NOP".toList, [])
  | .movcReg cc d s => some ("MOV".toList ++ printCond cc, [.reg .gpr d, .reg .gpr s])
  | .movcRegR1 cc d s => some ("MOV".toList ++ printCond cc, [.reg .gpr d, .reg .gpr s])
  | .movcRead cc d m s => some ("MOV".toList ++ printCond cc, [.reg .gpr d, .reg m s])
  | .movcWrite cc m d s => some ("MOV".toList ++ printCond cc, [.reg m d, .reg .gpr s])
  | .movReg d s => some ("MOV".toList, [.reg .gpr d, .reg .gpr s])
  | .movRead d m s => some ("MOV".toList, [.reg .gpr d, .reg m s])
  | .movWrite m d s => some ("MOV".toList, [.reg m d, .reg .gpr s])
  | .movlReg cc d s => some ("MOVL".toList ++ printCond cc, [.reg .gpr d, .reg .gpr s])
  | .movlRead cc d m s => some ("MOVL".toList ++ printCond cc, [.reg .gpr d, .reg m s])
  | .movlWrite cc m d s => some ("MOVL".toList ++ printCond cc, [.reg m d, .reg .gpr s])
  | .ld d s w => (writtenSize w).map fun z => ("LD".toList, [.reg .gpr d, .reg .gpr s, z])
  | .st d s w => (writtenSize w).map fun z => ("ST".toList, [.reg .gpr d, .reg .gpr s, z])
  | .ldWord d s => some ("LD".toList, [.reg .gpr d, .reg .gpr s])
  | .stWord d s => some ("ST".toList, [.reg .gpr d, .reg .gpr s])
  | .push d s w => (writtenSize w).map fun z => ("PUSH".toList, [.reg .gpr d, .reg .gpr s, z])
  | .pop d s w => (writtenSize w).map fun z => ("POP".toList, [.reg .gpr d, .reg .gpr s, z])
  | .pushWord d s => some ("PUSH".toList, [.reg .gpr d, .reg .gpr s])
  | .popWord d s => some ("POP".toList, [.reg .gpr d, .reg .gpr s])
  | .pushShort s => some ("PUSH".toList, [.reg .gpr s])
  | .popShort d => some ("POP".toList, [.reg .gpr d])
  | .addi d imm => some ("ADDI".toList, [.reg .gpr d, .int imm.toInt])

/-- The instructions whose written form assembles to exactly their word: not a payload other than 0 (30_encoding.md
R103), not the decoder-only rows (R106), not `w = 3` (R97). -/
def assemblable : Instr → Bool
  | .und p => p == 0#24
  | .movcRegR1 _ _ _ => false
  | .movcRead _ _ m _ => m != .gpr
  | .movcWrite _ m _ _ => m != .gpr
  | .movRead _ m _ => m != .gpr
  | .movWrite m _ _ => m != .gpr
  | .movlRead _ _ m _ => m != .gpr
  | .movlWrite _ m _ _ => m != .gpr
  | .ld _ _ w => w != 3#2
  | .st _ _ w => w != 3#2
  | .push _ _ w => w != 3#2
  | .pop _ _ w => w != 3#2
  | .pause _ => true
  | .nop => true
  | .movcReg _ _ _ => true
  | .movReg _ _ => true
  | .movlReg _ _ _ => true
  | .ldWord _ _ => true
  | .stWord _ _ => true
  | .pushWord _ _ => true
  | .popWord _ _ => true
  | .pushShort _ => true
  | .popShort _ => true
  | .addi _ _ => true

/-- The text of an integer. -/
def printInt (n : Int) : List Char :=
  if n < 0 then '-' :: Nat.toDigits 10 n.natAbs else Nat.toDigits 10 n.natAbs

/-- The text of a written operand; a symbol has no name here and no text. -/
def printWritten : Written → List Char
  | .reg m i => printReg m i
  | .shifted m i n => printReg m i ++ " << ".toList ++ printInt n
  | .int n => printInt n
  | .const .byte => "byte".toList
  | .const .half => "half".toList
  | .const .word => "word".toList
  | .sym _ _ _ => []

/-- Operands separated by commas (30_encoding.md R101). -/
def printOperands : List Written → List Char
  | [] => []
  | [a] => ' ' :: printWritten a
  | a :: as' => ' ' :: printWritten a ++ ',' :: printOperands as'

/-- The text a disassembler prints for an instruction: the canonical row of its word (30_encoding.md R104, R127). -/
def disassemble (i : Instr) : Option (List Char) :=
  (writtenForm i.core).map fun f => f.1 ++ printOperands f.2

end Sys2Proof.Asm
end

