-- ==== Sys2Proof/Safety.lean ====
section
/-!
DEFINITION. What counts as a safe run, in the terms the statements use: where a data access is allowed (20_memory.md R57,
R58), the final state (70_reset_and_hazards.md R233), and the invariant every step keeps. The launch premises (R232) are
in Machine/Premises.lean.
-/

namespace Sys2Proof.Machine

/-- A data read of the size at the address raises nothing: aligned, and no byte unmapped (20_memory.md R57). -/
def readable (a : Word) (sz : Size) (s : State) : Bool :=
  aligned a sz && !anyByte s.launch a sz.bytes .unmapped

/-- A data write of the size at the address raises nothing and is not refused: readable, and no byte in `Text`
(20_memory.md R58). -/
def writable (a : Word) (sz : Size) (s : State) : Bool := readable a sz s && !anyByte s.launch a sz.bytes .text

/-- The four bytes at `pc` are all in `Text`: the fetch answers a word (20_memory.md R56). -/
def fetchable (s : State) : Bool := !anyByte s.launch s.pc 4 .unmapped && !anyByte s.launch s.pc 4 .data

/-- The run has ended (70_reset_and_hazards.md R233). -/
def State.final (s : State) : Prop := s.pc = s.launch.endAddr

/-- What every reachable state has: `pc` a multiple of 4 (10_state.md R26) and memory in canonical form. -/
def State.Inv (s : State) : Prop := s.pc.toNat % 4 = 0 ∧ Mem.wf s.mem = true

/-- The general registers an instruction may write (10_state.md R22). -/
def writtenRegs : Instr → List RegIx
  | .movcReg _ d _ | .movcRegR1 _ d _ | .movReg d _ => [d]
  | .movcRead _ d _ _ | .movcWrite _ _ d _ | .movRead d _ _ | .movWrite _ d _ => [d]
  | .ld d _ _ | .ldWord d _ => [d]
  | .pop d s _ | .popWord d s => [d, s]
  | .popShort d => [d, stackReg]
  | .push d _ _ | .pushWord d _ => [d]
  | .pushShort _ => [stackReg]
  | .addi d _ => [d]
  | .und _ | .pause _ | .nop | .movlReg _ _ _ | .movlRead _ _ _ _ | .movlWrite _ _ _ _ => []
  | .st _ _ _ | .stWord _ _ => []

/-- The instruction is an `ST` or a `PUSH`, the only ones that write memory (20_memory.md R52). -/
def isStore : Instr → Bool
  | .st _ _ _ | .stWord _ _ | .push _ _ _ | .pushWord _ _ | .pushShort _ => true
  | .und _ | .pause _ | .nop | .movcReg _ _ _ | .movcRegR1 _ _ _ | .movcRead _ _ _ _ | .movcWrite _ _ _ _ => false
  | .movReg _ _ | .movRead _ _ _ | .movWrite _ _ _ | .movlReg _ _ _ | .movlRead _ _ _ _ | .movlWrite _ _ _ _ => false
  | .ld _ _ _ | .ldWord _ _ | .pop _ _ _ | .popWord _ _ | .popShort _ | .addi _ _ => false

/-- The instruction is `ADDI`, the only one that writes the flags (10_state.md R31). -/
def isAddi : Instr → Bool
  | .addi _ _ => true
  | .und _ | .pause _ | .nop | .movcReg _ _ _ | .movcRegR1 _ _ _ | .movcRead _ _ _ _ | .movcWrite _ _ _ _ => false
  | .movReg _ _ | .movRead _ _ _ | .movWrite _ _ _ | .movlReg _ _ _ | .movlRead _ _ _ _ | .movlWrite _ _ _ _ => false
  | .ld _ _ _ | .ldWord _ _ | .pop _ _ _ | .popWord _ _ | .popShort _ => false
  | .st _ _ _ | .stWord _ _ | .push _ _ _ | .pushWord _ _ | .pushShort _ => false

/-- The condition the instruction tests, if it tests the flags (10_state.md R31). -/
def testedCond : Instr → Option Cond
  | .movcReg cc _ _ | .movcRegR1 cc _ _ | .movcRead cc _ _ _ | .movcWrite cc _ _ _ => some cc
  | .und _ | .pause _ | .nop | .movReg _ _ | .movRead _ _ _ | .movWrite _ _ _ => none
  | .movlReg _ _ _ | .movlRead _ _ _ _ | .movlWrite _ _ _ _ => none
  | .ld _ _ _ | .ldWord _ _ | .pop _ _ _ | .popWord _ _ | .popShort _ | .addi _ _ => none
  | .st _ _ _ | .stWord _ _ | .push _ _ _ | .pushWord _ _ | .pushShort _ => none

/-- The `pc` a fault records: that of the faulting instruction (60_exceptions.md R200). -/
def faultPc : Fault → Word
  | .undefinedInstruction pc _ | .misalignedAccess _ pc | .accessFault _ pc => pc

/-- The step answers a next state. -/
def completes (r : Result State) : Prop := ∃ t, r = .next t

/-- `n` steps of the machine, stopping at the first fault or refusal. -/
def runSteps (n : Nat) (s : State) : Result State := Host.Core.run Sys2Proof.core n s

end Sys2Proof.Machine
end

