-- ==== Sys2Proof/Machine/Premises.lean ====
section
/-!
DEFINITION. The launch premises that a claim about a run carries by name (70_reset_and_hazards.md R232), and what they speak
of: the addresses a step touches (20_memory.md R52) and an observed run. An observed run is the list of the states that
are seen one after another, the launch state first; the form is the model's, log entry 43.
-/

namespace Sys2Proof.Machine

/-! ### What a step touches -/

/-- The data access an instruction makes: its address and size, if it makes one (20_memory.md R52). The forms that are
refused before their access make none (42_ld_st.md R174). -/
def dataAccess (i : Instr) (s : State) : Option (Word × Size) :=
  match i with
  | .ld _ rs w => load rs w
  | .ldWord _ rs => load rs wordField
  | .pop rd rs w => if rd = rs then none else load rs w
  | .popWord rd rs => if rd = rs then none else load rs wordField
  | .popShort rd => if rd = stackReg then none else load stackReg wordField
  | .st rd _ w => load rd w
  | .stWord rd _ => load rd wordField
  | .push rd rs w => if rd = rs then none else lowered rd w
  | .pushWord rd rs => if rd = rs then none else lowered rd wordField
  | .pushShort rs => if stackReg = rs then none else lowered stackReg wordField
  | .und _ | .pause _ | .nop | .movcReg _ _ _ | .movcRegR1 _ _ _ | .movcRead _ _ _ _ | .movcWrite _ _ _ _ => none
  | .movReg _ _ | .movRead _ _ _ | .movWrite _ _ _ | .movlReg _ _ _ | .movlRead _ _ _ _ | .movlWrite _ _ _ _ => none
  | .addi _ _ => none
where
  /-- an access at the address a register holds -/
  load (a : RegIx) (w : BitVec 2) : Option (Word × Size) := (Size.ofField w).map fun sz => (readReg a s, sz)
  /-- an access at that address lowered by the size -/
  lowered (a : RegIx) (w : BitVec 2) : Option (Word × Size) :=
    (Size.ofField w).map fun sz => (pushAddr (readReg a s) sz, sz)

/-- The addresses of the data access of an instruction; a misaligned access touches none (20_memory.md R55). -/
def dataBytes (i : Instr) (s : State) : List Nat :=
  match dataAccess i s with
  | some (a, sz) => if aligned a sz then (List.range sz.bytes).map (byteAddr a) else []
  | none => []

/-- The instruction at `pc`, where it is fetched and decoded (20_memory.md R56). -/
def instrAt (s : State) : Option Instr :=
  match andThen (fetch s) decodeFetched with
  | .next i => some i
  | .fault _ => none
  | .refused _ => none

/-- The addresses the step at a state touches: its fetch and its data access (20_memory.md R52). -/
def touchedBytes (s : State) : List Nat :=
  (List.range Config.instrBytes).map (byteAddr s.pc) ++
    match instrAt s with
    | some i => dataBytes i s
    | none => []

/-- The addresses the step at a state stores to: the data access of an `ST` or a `PUSH`. -/
def storedBytes (s : State) : List Nat :=
  match instrAt s with
  | some i => if isStore i then dataBytes i s else []
  | none => []

/-! ### The premises -/

/-- Two states seen one after the other in an observed run. -/
def Follows (observed : List State) (s t : State) : Prop :=
  ∃ k, observed[k]? = some s ∧ observed[k + 1]? = some t

/-- `NoFaultRecorded`: the outcome a run is launched with is a state, not a fault and not a refusal. -/
def NoFaultRecorded (start : Result State) (s : State) : Prop := start = .next s

/-- `AlignedEntry`: `RESET_VECTOR` and `END_ADDR` are multiples of 4 and `RESET_VECTOR` is in `Text`. -/
def AlignedEntry (l : Launch) (resetVector : Word) : Prop :=
  resetVector.toNat % 4 = 0 ∧ l.endAddr.toNat % 4 = 0 ∧ l.kind resetVector.toNat = .text

/-- `MemDescribesLaunch`: `Text` holds the program's words, in order from the `pc` of the launch state, and every address
that a step of the run touches is in `Text` or `Data`. The premise says nothing of the bytes at `END_ADDR`, as R233 asks: a
word that the list would put there is passed over. `END_ADDR` is only "normally" just after the last word (R233); that it
may lie anywhere, with words of the list at it or past it, which no run reaches, is the MODEL's choice. DESIGN CHOICE: log
entry 44. -/
def MemDescribesLaunch (program : List Word) (s : State) : Prop :=
  (∀ k w, program[k]? = some w → s.pc + BitVec.ofNat 32 (4 * k) ≠ s.launch.endAddr → ∀ j < 4,
    s.launch.kind (byteAddr (s.pc + BitVec.ofNat 32 (4 * k)) j) = .text ∧
      Mem.read s.mem (byteAddr (s.pc + BitVec.ofNat 32 (4 * k)) j) = w.extractLsb' (8 * j) 8) ∧
  ∀ n t, runSteps n s = .next t → ¬ t.final → ∀ a ∈ touchedBytes t, t.launch.kind a ≠ .unmapped

/-- `NoOtherWriter`: nothing but this core's `ST` and `PUSH` changes memory during the run (20_memory.md R64). -/
def NoOtherWriter (observed : List State) : Prop :=
  ∀ s t, Follows observed s t → ∀ a, a ∉ storedBytes s → Mem.read t.mem a = Mem.read s.mem a

/-- `NoInterrupts`: nothing outside the instruction stream changes the flow of control or a register or flag that the
instruction at `pc` does not write (60_exceptions.md R206). -/
def NoInterrupts (observed : List State) : Prop :=
  ∀ s t, Follows observed s t → t.pc = s.pc + 4#32 ∧
    ∀ i, instrAt s = some i → (∀ j, j ∉ writtenRegs i → readReg j t = readReg j s) ∧
      (isAddi i = false → t.flags = s.flags)

/-- `TextImmutable`: the bytes of `Text` do not change during the run (20_memory.md R67). -/
def TextImmutable (observed : List State) : Prop :=
  ∀ s t, Follows observed s t → ∀ a, s.launch.kind a = .text → Mem.read t.mem a = Mem.read s.mem a

/-- `DecisionsHold`: decisions D1 to D42 of 92_eei_decisions.md describe the hardware, so that what is seen is what the
model does: every state seen is the step of the one before it. -/
def DecisionsHold (observed : List State) : Prop :=
  ∀ s t, Follows observed s t → step s = .next t

/-- The premises of a claim about the run of a program launched at `RESET_VECTOR` (70_reset_and_hazards.md R230, R232). -/
structure LaunchPremises (start : Result State) (s : State) (resetVector : Word) (program : List Word)
    (observed : List State) : Prop where
  /-- the run begins in the launch state -/
  begins : observed[0]? = some s ∧ s.pc = resetVector
  noFaultRecorded : NoFaultRecorded start s
  alignedEntry : AlignedEntry s.launch resetVector
  memDescribesLaunch : MemDescribesLaunch program s
  noOtherWriter : NoOtherWriter observed
  noInterrupts : NoInterrupts observed
  textImmutable : TextImmutable observed
  decisionsHold : DecisionsHold observed

end Sys2Proof.Machine
end

