-- ==== Sys2Proof/WellFormed.lean ====
section
/-!
DEFINITION. Which instruction terms are instructions of the charts. The field widths are in the types; what is left to
check is that an `ANYREG` row names a register outside map 0 where the `GPR, GPR` row of the same mnemonic comes first
(30_encoding.md R106: the first matching row; spec/opcode_table.json: the `ANYREG` rows are reached only with `m != 0`).
The size field `w` is not checked here: `w = 3` decodes and is refused at execution (42_ld_st.md R171).
-/

namespace Sys2Proof

/-- The term is the row its word belongs to. `movlWrite` is well formed with every map: no other `MOVL<c>` row has
`r = 1`. -/
def Instr.wf : Instr → Bool
  | .und _ => true
  | .pause _ => true
  | .nop => true
  | .movcReg _ _ _ => true
  | .movcRegR1 _ _ _ => true
  | .movcRead _ _ m _ => m != .gpr
  | .movcWrite _ m _ _ => m != .gpr
  | .movReg _ _ => true
  | .movRead _ m _ => m != .gpr
  | .movWrite m _ _ => m != .gpr
  | .movlReg _ _ _ => true
  | .movlRead _ _ m _ => m != .gpr
  | .movlWrite _ _ _ _ => true
  | .ld _ _ _ => true
  | .st _ _ _ => true
  | .ldWord _ _ => true
  | .stWord _ _ => true
  | .push _ _ _ => true
  | .pop _ _ _ => true
  | .pushWord _ _ => true
  | .popWord _ _ => true
  | .pushShort _ => true
  | .popShort _ => true
  | .addi _ _ => true

end Sys2Proof
end

