-- ==== Sys2Proof/Certificates/Slice0/Obligations.lean ====
section
/-!
DEFINITION. The statements for the provers. Each docstring names the rule of the spec it formalises; a rule that the spec
marks as its own decision is cited with the decision's number, and a clause that rests on a choice of the model names
the log entry.
-/

open Sys2Proof Sys2Proof.Machine Sys2Proof.Asm

/-! ### Encoding -/

/-- Decoding an encoded well-formed instruction gives it back, the written short forms as the row they abbreviate
(30_encoding.md Parts D to F; layout: spec decisions D7 to D9). -/
def Obligations.DecodeOfEncodeIsCore : Prop :=
  ∀ i : Instr, i.wf = true → decodeWord (encode i) = .ok i.core ∧ encode i.core = encode i

/-- A word the decoder accepts is the word of the instruction it gives, and that instruction is well formed and one of the
decoder's own rows: no bit of the word is dropped, and no two words share an instruction (30_encoding.md R120, spec
decisions D7, D8, D10). -/
def Obligations.EncodeOfDecodeIsWord : Prop :=
  ∀ (w : Word) (i : Instr), decodeWord w = .ok i → encode i = w ∧ i.wf = true ∧ i.core = i

/-- 30_encoding.md R122: the decoder refuses exactly the words of opcodes 0x01, 0x02, 0x03, 0x04, 0x08 in which a reserved
bit is 1, and the encoder emits none (spec decision D10; the fields are those of R114 to R117, D8). -/
def Obligations.ReservedBitsRefused : Prop :=
  (∀ w v : Word, decodeWord w = .error (.reservedBits v) ↔
    v = w ∧
      ((w.extractLsb' 24 8 = 0x01#8 ∧ w.extractLsb' 6 18 ≠ 0#18) ∨
       (w.extractLsb' 24 8 = 0x02#8 ∧ w.extractLsb' 0 5 ≠ 0#5) ∨
       (w.extractLsb' 24 8 = 0x03#8 ∧ w.extractLsb' 0 11 ≠ 0#11) ∨
       (w.extractLsb' 24 8 = 0x04#8 ∧ w.extractLsb' 0 11 ≠ 0#11) ∨
       (w.extractLsb' 24 8 = 0x08#8 ∧ w.extractLsb' 16 3 ≠ 0#3))) ∧
  ∀ (i : Instr) (v : Word), decodeWord (encode i) ≠ .error (.reservedBits v)

/-- 30_encoding.md R123: a word is refused as an opcode not shown exactly if its opcode is 0x05, 0x06, 0x07 or 0x09 to
0xFF (spec decision D11). -/
def Obligations.UnshownOpcodesRefused : Prop :=
  ∀ (w : Word) (op : BitVec 8), decodeWord w = .error (.opcodeNotShown op) ↔
    op = w.extractLsb' 24 8 ∧ ((0x05 ≤ op.toNat ∧ op.toNat ≤ 0x07) ∨ 0x09 ≤ op.toNat)

/-- Words written out from the spec's encodings decode to the instructions they stand for (95_test_vectors.md A1 to A32,
C1, C8, C9; 30_encoding.md R113 to R118). -/
def Obligations.WorkedWordsDecode : Prop :=
  decodeWord 0x00ABCDEF#32 = .ok (.und 0xABCDEF#24) ∧ decodeWord 0x01000005#32 = .ok (.pause 5#6) ∧
  decodeWord 0x02190800#32 = .ok (.movcReg .z 3#5 4#5) ∧ decodeWord 0x0208BC40#32 = .ok (.movcRegR1 .al 1#5 2#5) ∧
  decodeWord 0x02083C80#32 = .ok (.movcRead .al 1#5 .sys 0#5) ∧
  decodeWord 0x0229FDC0#32 = .ok (.movcWrite .al .io 5#5 7#5) ∧
  decodeWord 0x024FFF80#32 = .ok (.movcRead .al 9#5 (.co 3#2) 31#5) ∧
  decodeWord 0x02089420#32 = .ok (.movlReg .lt 1#5 2#5) ∧ decodeWord 0x0318B000#32 = .ok (.ld 3#5 2#5 3#2) ∧
  decodeWord 0x04105000#32 = .ok (.st 2#5 1#5 1#2) ∧ decodeWord 0x04F06800#32 = .ok (.push 30#5 1#5 2#2) ∧
  decodeWord 0x03314800#32 = .ok (.pop 6#5 5#5 0#2) ∧ decodeWord 0x08F88000#32 = .ok (.addi 31#5 0x8000#16)

/-- Every written short form does what the row it abbreviates does (30_encoding.md section Part F; 40_und_pause.md,
41_mov.md, 42_ld_st.md). -/
def Obligations.ShortFormsActAsTheirExpansion : Prop :=
  ∀ (i : Instr) (s : State), exec i s = exec i.core s

/-! ### The assembler -/

/-- The assembler, reading the source's charts, gives for the written form of an instruction exactly the encoder's word
(30_encoding.md Parts C, D, F): every row, condition suffix, register map, size and immediate. -/
def Obligations.AssemblerAgreesWithEncoder : Prop :=
  ∀ (link : LinkParameters) (i : Instr) (at' : Word), assemblable i = true →
    ∃ mn args, writtenForm i = some (mn, args) ∧ assemble link mn args at' = some (encode i)

/-- 30_encoding.md R99: `NV` is 0, the only name 0 has, and 12 is written and printed `NO`; every other short form has the
number the table gives it, and what is printed for a condition reads back as it (90_conflicts.md C1). -/
def Obligations.ConditionNamesReadBack : Prop :=
  (∀ cc : Cond, parseCond (printCond cc) = some cc) ∧ printCond .no = "NO".toList ∧
  (∀ text, parseCond text = some .nv → text = "NV".toList) ∧
  (∀ row ∈ [("NV", 0#4), ("C", 1#4), ("B", 1#4), ("Z", 2#4), ("EQ", 2#4), ("V", 3#4), ("O", 3#4), ("CE", 4#4),
      ("BE", 4#4), ("LT", 5#4), ("LE", 6#4), ("N", 7#4), ("S", 7#4), ("P", 8#4), ("NS", 8#4), ("GT", 9#4),
      ("NLE", 9#4), ("GE", 10#4), ("NLT", 10#4), ("A", 11#4), ("NBE", 11#4), ("NCE", 11#4), ("NO", 12#4),
      ("NZ", 13#4), ("NE", 13#4), ("NC", 14#4), ("NB", 14#4), ("AE", 14#4), ("AL", 15#4)],
    (parseCond row.1.toList).map Cond.number = some row.2)

/-- 30_encoding.md Part B, splitting a conditional mnemonic: no text is a `MOV` with a short form and a `MOVL` with a short
form at once. -/
def Obligations.ConditionalMnemonicsSplitOneWay : Prop :=
  ∀ rest : List Char, ¬ ((parseCond ('L' :: rest)).isSome = true ∧ (parseCond rest).isSome = true)

/-- 30_encoding.md Part A, `OFF20`: an operand holds bits 21 to 2 of a signed 22-bit byte offset divisible by 4, and no
other; its relocation is `R_MICRON_JMPOFF`. That the hardware reverses the step, so that `off20Bytes` gives the offset
back, is an inference the spec marks as derived (R94, from "discards the lower two bits"); no surviving chart shows a
jump. -/
def Obligations.JumpOffsetsReadBack : Prop :=
  relocOf .off20 none false = some .jmpoff ∧
  ∀ o : Int, (-2097152 ≤ o ∧ o ≤ 2097151 ∧ o % 4 = 0 → ∃ f, off20Field o = some f ∧ off20Bytes f = o) ∧
    (¬ (-2097152 ≤ o ∧ o ≤ 2097151 ∧ o % 4 = 0) → off20Field o = none)

/-- 30_encoding.md R96: a `BITW` operand takes 1 to 32 and nothing else, 32 is encoded as 0, and the field gives the width
back. -/
def Obligations.BitWidthsReadBack : Prop :=
  (∀ n : Nat, 1 ≤ n ∧ n ≤ 32 → ∃ f, bitwField (n : Int) = some f ∧ bitwWidth f = n ∧ (n < 32 → f.toNat = n)) ∧
    bitwField 32 = some 0#5 ∧ (∀ n : Int, ¬ (1 ≤ n ∧ n ≤ 32) → bitwField n = none) ∧
    SizeConst.byte.width = 8 ∧ SizeConst.half.width = 16 ∧ SizeConst.word.width = 32

/-- 30_encoding.md R97: a `BYTESZ` operand holds `lg` of 1, 2 or 4 and nothing else can be written. -/
def Obligations.ByteSizesEncodeAsLog : Prop :=
  byteszField 1 = some 0#2 ∧ byteszField 2 = some 1#2 ∧ byteszField 4 = some 2#2 ∧
    (∀ n : Int, n ≠ 1 ∧ n ≠ 2 ∧ n ≠ 4 → byteszField n = none) ∧
    SizeConst.byte.size = 1 ∧ SizeConst.half.size = 2 ∧ SizeConst.word.size = 4

/-- 30_encoding.md Part A, relocations: which relocation a symbol has as it is written. The names `R_MICRON_16` and
`R_MICRON_32` are an inference the spec marks as derived (R92, "by putting n = 16 and 32"); that `LO` and `HI` in a
32-bit immediate have the relocations of a 16-bit one is the MODEL's choice: log entry 14. -/
def Obligations.RelocationsOfSymbols : Prop :=
  (∀ k, k = .uimm16 ∨ k = .simm16 → relocOf k none false = some (.abs 16) ∧ relocOf k none true = some .pc16) ∧
  (∀ k, k = .uimm32 ∨ k = .simm32 → relocOf k none false = some (.abs 32) ∧ relocOf k none true = none) ∧
  (∀ k, k = .uimm16 ∨ k = .simm16 ∨ k = .uimm32 ∨ k = .simm32 →
    relocOf k (some .lo) false = some .lo16 ∧ relocOf k (some .hi) false = some .hi16 ∧
    relocOf k (some .lo) true = some .lopc16 ∧ relocOf k (some .hi) true = some .hipc16) ∧
  relocOf .pcrel16 none false = some .pc16 ∧ relocOf .pcrel16 none true = some .pc16 ∧
  relocOf .off20 none false = some .jmpoff

/-! ### Reset -/

/-- The launch state for any launch: `pc` at `RESET_VECTOR`, the registers and flags as they happen to be, the memory and
its map as `MEM` gives them, the run ending at `END_ADDR` (10_state.md section 6; 70_reset_and_hazards.md section 1; spec
decision D32). -/
def Obligations.LaunchStateIsAsGiven : Prop :=
  ∀ (regs : Vector Word 32) (f : Flags) (p : LaunchParameters) (i : RegIx),
    (State.launchState regs f p).pc = p.resetVector ∧ readReg i (State.launchState regs f p) = regs[i.toNat]'i.isLt ∧
      (State.launchState regs f p).flags = f ∧
      (∀ a, Mem.read (State.launchState regs f p).mem a = Mem.read p.mem.bytes a) ∧
      (∀ a, (State.launchState regs f p).launch.kind a =
        if p.mem.text.any (·.has a) then .text else if p.mem.data.any (·.has a) then .data else .unmapped) ∧
      (State.launchState regs f p).launch.endAddr = p.endAddr

/-- The values `State.reset` names where the spec leaves them open: the MODEL's choice, log entries 2 to 7. -/
def Obligations.ResetNamesItsValues : Prop :=
  State.reset.pc = 0x00001000#32 ∧ (∀ i, readReg i State.reset = 0#32) ∧
    State.reset.flags = { c := false, z := false, v := false, n := false } ∧ (∀ a, Mem.read State.reset.mem a = 0#8) ∧
    (∀ a, a < 2 ^ 32 → State.reset.launch.kind a = if a / 4 = 0x00001000 / 4 then .text else .data) ∧
    State.reset.launch.endAddr = 0x00000000#32

/-- The invariant holds at reset. -/
def Obligations.InvariantHoldsAtReset : Prop := State.reset.Inv

/-! ### Conditions -/

/-- 10_state.md R32: what each of the sixteen numbers tests (spec decision D6). -/
def Obligations.ConditionFormulas : Prop :=
  ∀ f : Flags,
    (condHolds (.ofNumber 0#4) f = true ↔ False) ∧ (condHolds (.ofNumber 1#4) f = true ↔ f.c = true) ∧
    (condHolds (.ofNumber 2#4) f = true ↔ f.z = true) ∧ (condHolds (.ofNumber 3#4) f = true ↔ f.v = true) ∧
    (condHolds (.ofNumber 4#4) f = true ↔ f.c = true ∨ f.z = true) ∧ (condHolds (.ofNumber 5#4) f = true ↔ f.n ≠ f.v) ∧
    (condHolds (.ofNumber 6#4) f = true ↔ f.z = true ∨ f.n ≠ f.v) ∧ (condHolds (.ofNumber 7#4) f = true ↔ f.n = true) ∧
    (condHolds (.ofNumber 8#4) f = true ↔ f.n = false) ∧ (condHolds (.ofNumber 9#4) f = true ↔ f.z = false ∧ f.n = f.v) ∧
    (condHolds (.ofNumber 10#4) f = true ↔ f.n = f.v) ∧ (condHolds (.ofNumber 11#4) f = true ↔ f.c = false ∧ f.z = false) ∧
    (condHolds (.ofNumber 12#4) f = true ↔ f.v = false) ∧ (condHolds (.ofNumber 13#4) f = true ↔ f.z = false) ∧
    (condHolds (.ofNumber 14#4) f = true ↔ f.c = false) ∧ (condHolds (.ofNumber 15#4) f = true ↔ True)

/-- 10_state.md section 3, the complement law: `cond(15 - c) = not cond(c)`. -/
def Obligations.ConditionComplementLaw : Prop :=
  ∀ (k : BitVec 4) (f : Flags), condHolds (.ofNumber (15#4 - k)) f = !condHolds (.ofNumber k) f

/-! ### UND, PAUSE, NOP -/

/-- 40_und_pause.md R140, R141: `UND` is written without operands and assembles to the zero word; every word 0x00pppppp is
`UND`, and `UND` always raises the undefined-instruction fault, recording `pc` and the word (spec decision D12). The
instruction stops on every path because the spec says so. -/
def Obligations.UndAlwaysFaults : Prop :=
  (∀ link at', assemble link "UND".toList [] at' = some 0x00000000#32) ∧ encode (.und 0#24) = 0x00000000#32 ∧
  ∀ (p : BitVec 24) (s : State), decodeWord (0x00#8 ++ p) = .ok (.und p) ∧
    exec (.und p) s = .fault (.undefinedInstruction s.pc (0x00#8 ++ p))

/-- 40_und_pause.md R142, R144: `PAUSE <k>` for every `k`, and `NOP`, complete with `pc + 4` and no other change (spec
decision D13). `NOP` is the word 0x01000000, which decodes to and is printed as `PAUSE 0`; `PAUSE <k>` is the word with
`k` in bits 5 to 0, and a word of the opcode with any bit above them set is refused. -/
def Obligations.PauseOnlyAdvances : Prop :=
  encode .nop = 0x01000000#32 ∧ decodeWord 0x01000000#32 = .ok (.pause 0#6) ∧
  disassemble (.pause 0#6) = some "PAUSE 0".toList ∧
  (∀ w : Word, w.extractLsb' 24 8 = 0x01#8 → w.extractLsb' 6 18 ≠ 0#18 → decodeWord w = .error (.reservedBits w)) ∧
  ∀ (k : BitVec 6) (s : State) (i : Instr), (i = .pause k ∨ i = .nop) →
    encode (.pause k) = 0x01#8 ++ 0#18 ++ k ∧
    ∃ t, exec i s = .next t ∧ t.pc = s.pc + 4#32 ∧ (∀ j, readReg j t = readReg j s) ∧ t.flags = s.flags ∧
      (∀ a, Mem.read t.mem a = Mem.read s.mem a) ∧ t.launch = s.launch ∧ t.draws = s.draws

/-! ### MOV -/

/-- 41_mov.md, moves between general registers: such a move, in each of its written forms and with either value of `r`,
completes: if the condition holds `x[d]` becomes `x[s]`, else nothing but `pc` changes; no flag is written (spec decision
D14). That `r` makes no difference is an inference the spec marks as its own (R154). -/
def Obligations.MovBetweenGeneralRegisters : Prop :=
  ∀ (cc : Cond) (d s : RegIx) (st : State) (i : Instr),
    (i = .movcReg cc d s ∨ i = .movcRegR1 cc d s ∨ i = .movcRead cc d .gpr s ∨ i = .movcWrite cc .gpr d s ∨
      (cc = .al ∧ (i = .movReg d s ∨ i = .movRead d .gpr s ∨ i = .movWrite .gpr d s))) →
    ∃ t, exec i st = .next t ∧ t.pc = st.pc + 4#32 ∧
      readReg d t = (if condHolds cc st.flags = true then readReg s st else readReg d st) ∧
      (∀ j, j ≠ d → readReg j t = readReg j st) ∧ t.flags = st.flags ∧
      (∀ a, Mem.read t.mem a = Mem.read st.mem a) ∧ t.launch = st.launch ∧ t.draws = st.draws

/-- 41_mov.md R155: a move naming a register of map 1 to 7 is refused, whatever the condition and the index (spec decision
D15). These forms stop on every path because the spec says so. -/
def Obligations.MovOfOtherMapsRefused : Prop :=
  ∀ (cc : Cond) (m : RegMap) (d s : RegIx) (st : State), m ≠ .gpr →
    exec (.movcRead cc d m s) st = .refused (.unmodelledMap m.number (encode (.movcRead cc d m s))) ∧
    exec (.movcWrite cc m d s) st = .refused (.unmodelledMap m.number (encode (.movcWrite cc m d s))) ∧
    exec (.movRead d m s) st = .refused (.unmodelledMap m.number (encode (.movRead d m s))) ∧
    exec (.movWrite m d s) st = .refused (.unmodelledMap m.number (encode (.movWrite m d s)))

/-- 41_mov.md R156: every `MOVL<c>` is refused (spec decision D16). It stops on every path because the spec says so. -/
def Obligations.MovlRefused : Prop :=
  ∀ (cc : Cond) (m : RegMap) (d s : RegIx) (st : State),
    exec (.movlReg cc d s) st = .refused (.movlUnmodelled (encode (.movlReg cc d s))) ∧
    exec (.movlRead cc d m s) st = .refused (.movlUnmodelled (encode (.movlRead cc d m s))) ∧
    exec (.movlWrite cc m d s) st = .refused (.movlUnmodelled (encode (.movlWrite cc m d s)))

/-- 41_mov.md R152, R153: what a step does with a word of opcode 0x02, by its fields. The word is refused for `l = 1` before
its map is looked at, and for its map before the condition is; a false condition changes `pc` only (spec decisions D14
to D16). -/
def Obligations.MovWordOutcomeOrder : Prop :=
  ∀ (w : Word) (i : Instr) (st : State), w.extractLsb' 24 8 = 0x02#8 → decodeWord w = .ok i →
    exec i st =
      if w.extractLsb' 5 1 = 1#1 then .refused (.movlUnmodelled w)
      else if w.extractLsb' 7 3 ≠ 0#3 then .refused (.unmodelledMap (w.extractLsb' 7 3) w)
      else if condHolds (.ofNumber (w.extractLsb' 10 4)) st.flags = true then
        .next { writeReg (w.extractLsb' 19 5) (readReg (w.extractLsb' 14 5) st) st with pc := st.pc + 4#32 }
      else .next { st with pc := st.pc + 4#32 }

/-! ### LD, ST, PUSH, POP -/

/-- 42_ld_st.md R167, with the size `2^w`: `w = 3` is refused; then an address in `x[s]` that is no multiple of the size
faults; then an unmapped byte faults; else `LD` completes: `x[d]` holds the bytes, lowest first, zero-extended, and
nothing else but `pc` changes (spec decisions D17, D18, D24). -/
def Obligations.LoadZeroExtends : Prop :=
  ∀ (d s : RegIx) (w : BitVec 2) (st : State) (i : Instr), (i = .ld d s w ∨ (w = 2#2 ∧ i = .ldWord d s)) →
    (w = 3#2 → exec i st = .refused (.sizeReserved (encode i))) ∧
    (w ≠ 3#2 → (readReg s st).toNat % 2 ^ w.toNat ≠ 0 →
      exec i st = .fault (.misalignedAccess (readReg s st) st.pc)) ∧
    (w ≠ 3#2 → (readReg s st).toNat % 2 ^ w.toNat = 0 →
      (∃ k < 2 ^ w.toNat, st.launch.kind ((readReg s st).toNat + k) = .unmapped) →
      exec i st = .fault (.accessFault (readReg s st) st.pc)) ∧
    (w ≠ 3#2 → (readReg s st).toNat % 2 ^ w.toNat = 0 →
      (∀ k < 2 ^ w.toNat, st.launch.kind ((readReg s st).toNat + k) ≠ .unmapped) →
      ∃ t, exec i st = .next t ∧ t.pc = st.pc + 4#32 ∧
        (∀ k < 4, (readReg d t).extractLsb' (8 * k) 8 =
          if k < 2 ^ w.toNat then Mem.read st.mem ((readReg s st).toNat + k) else 0#8) ∧
        (∀ j, j ≠ d → readReg j t = readReg j st) ∧ t.flags = st.flags ∧
        (∀ a, Mem.read t.mem a = Mem.read st.mem a) ∧ t.launch = st.launch ∧ t.draws = st.draws)

/-- 42_ld_st.md R168, with the size `2^w`: `w = 3` is refused; then an address in `x[d]` that is no multiple of the size
faults; then an unmapped byte faults; then a byte in `Text` is refused; else `ST` completes: the low bytes of `x[s]`
stand at the address, lowest first, and nothing else but `pc` changes (spec decisions D17, D24, D28). -/
def Obligations.StoreWritesLowBytes : Prop :=
  ∀ (d s : RegIx) (w : BitVec 2) (st : State) (i : Instr), (i = .st d s w ∨ (w = 2#2 ∧ i = .stWord d s)) →
    (w = 3#2 → exec i st = .refused (.sizeReserved (encode i))) ∧
    (w ≠ 3#2 → (readReg d st).toNat % 2 ^ w.toNat ≠ 0 →
      exec i st = .fault (.misalignedAccess (readReg d st) st.pc)) ∧
    (w ≠ 3#2 → (readReg d st).toNat % 2 ^ w.toNat = 0 →
      (∃ k < 2 ^ w.toNat, st.launch.kind ((readReg d st).toNat + k) = .unmapped) →
      exec i st = .fault (.accessFault (readReg d st) st.pc)) ∧
    (w ≠ 3#2 → (readReg d st).toNat % 2 ^ w.toNat = 0 →
      (∀ k < 2 ^ w.toNat, st.launch.kind ((readReg d st).toNat + k) ≠ .unmapped) →
      (∃ k < 2 ^ w.toNat, st.launch.kind ((readReg d st).toNat + k) = .text) →
      exec i st = .refused (.storeToText (readReg d st))) ∧
    (w ≠ 3#2 → (readReg d st).toNat % 2 ^ w.toNat = 0 →
      (∀ k < 2 ^ w.toNat, st.launch.kind ((readReg d st).toNat + k) = .data) →
      ∃ t, exec i st = .next t ∧ t.pc = st.pc + 4#32 ∧
        (∀ k < 2 ^ w.toNat, Mem.read t.mem ((readReg d st).toNat + k) = (readReg s st).extractLsb' (8 * k) 8) ∧
        (∀ b, (∀ k < 2 ^ w.toNat, b ≠ (readReg d st).toNat + k) → Mem.read t.mem b = Mem.read st.mem b) ∧
        (∀ j, readReg j t = readReg j st) ∧ t.flags = st.flags ∧ t.launch = st.launch ∧ t.draws = st.draws)

/-- 42_ld_st.md R169, with the size `2^w` and `a` the address register lowered by it: `w = 3` is refused; then `d = s`;
then an `a` that is no multiple of the size faults; then an unmapped byte faults; then a byte in `Text` is refused; else
`PUSH` completes: the low bytes of `x[s]` stand at `a`, which `x[d]` keeps, and nothing else but `pc` changes. The
one-operand form has `d = 30` (R173). Spec decisions D17, D19, D20, D24, D28. -/
def Obligations.PushStoresBelow : Prop :=
  ∀ (d s : RegIx) (w : BitVec 2) (st : State) (i : Instr) (a : Word),
    (i = .push d s w ∨ (w = 2#2 ∧ i = .pushWord d s) ∨ (w = 2#2 ∧ d = 30#5 ∧ i = .pushShort s)) →
    a = readReg d st - BitVec.ofNat 32 (2 ^ w.toNat) →
    (w = 3#2 → exec i st = .refused (.sizeReserved (encode i))) ∧
    (w ≠ 3#2 → d = s → exec i st = .refused (.pushPopSameRegister (encode i))) ∧
    (w ≠ 3#2 → d ≠ s → a.toNat % 2 ^ w.toNat ≠ 0 → exec i st = .fault (.misalignedAccess a st.pc)) ∧
    (w ≠ 3#2 → d ≠ s → a.toNat % 2 ^ w.toNat = 0 → (∃ k < 2 ^ w.toNat, st.launch.kind (a.toNat + k) = .unmapped) →
      exec i st = .fault (.accessFault a st.pc)) ∧
    (w ≠ 3#2 → d ≠ s → a.toNat % 2 ^ w.toNat = 0 → (∀ k < 2 ^ w.toNat, st.launch.kind (a.toNat + k) ≠ .unmapped) →
      (∃ k < 2 ^ w.toNat, st.launch.kind (a.toNat + k) = .text) → exec i st = .refused (.storeToText a)) ∧
    (w ≠ 3#2 → d ≠ s → a.toNat % 2 ^ w.toNat = 0 → (∀ k < 2 ^ w.toNat, st.launch.kind (a.toNat + k) = .data) →
      ∃ t, exec i st = .next t ∧ t.pc = st.pc + 4#32 ∧ readReg d t = a ∧
        (∀ k < 2 ^ w.toNat, Mem.read t.mem (a.toNat + k) = (readReg s st).extractLsb' (8 * k) 8) ∧
        (∀ b, (∀ k < 2 ^ w.toNat, b ≠ a.toNat + k) → Mem.read t.mem b = Mem.read st.mem b) ∧
        (∀ j, j ≠ d → readReg j t = readReg j st) ∧ t.flags = st.flags ∧ t.launch = st.launch ∧ t.draws = st.draws)

/-- 42_ld_st.md R170, with the size `2^w`: `w = 3` is refused; then `d = s`; then an address in `x[s]` that is no multiple
of the size faults; then an unmapped byte faults; else `POP` completes: `x[d]` holds the bytes zero-extended, `x[s]` is
raised by the size, and nothing else but `pc` changes. The one-operand form has `s = 30` (R173, 90_conflicts.md C2).
Spec decisions D17 to D20, D24. -/
def Obligations.PopLoadsAndRaises : Prop :=
  ∀ (d s : RegIx) (w : BitVec 2) (st : State) (i : Instr),
    (i = .pop d s w ∨ (w = 2#2 ∧ i = .popWord d s) ∨ (w = 2#2 ∧ s = 30#5 ∧ i = .popShort d)) →
    (w = 3#2 → exec i st = .refused (.sizeReserved (encode i))) ∧
    (w ≠ 3#2 → d = s → exec i st = .refused (.pushPopSameRegister (encode i))) ∧
    (w ≠ 3#2 → d ≠ s → (readReg s st).toNat % 2 ^ w.toNat ≠ 0 →
      exec i st = .fault (.misalignedAccess (readReg s st) st.pc)) ∧
    (w ≠ 3#2 → d ≠ s → (readReg s st).toNat % 2 ^ w.toNat = 0 →
      (∃ k < 2 ^ w.toNat, st.launch.kind ((readReg s st).toNat + k) = .unmapped) →
      exec i st = .fault (.accessFault (readReg s st) st.pc)) ∧
    (w ≠ 3#2 → d ≠ s → (readReg s st).toNat % 2 ^ w.toNat = 0 →
      (∀ k < 2 ^ w.toNat, st.launch.kind ((readReg s st).toNat + k) ≠ .unmapped) →
      ∃ t, exec i st = .next t ∧ t.pc = st.pc + 4#32 ∧
        (∀ k < 4, (readReg d t).extractLsb' (8 * k) 8 =
          if k < 2 ^ w.toNat then Mem.read st.mem ((readReg s st).toNat + k) else 0#8) ∧
        readReg s t = readReg s st + BitVec.ofNat 32 (2 ^ w.toNat) ∧
        (∀ j, j ≠ d → j ≠ s → readReg j t = readReg j st) ∧ t.flags = st.flags ∧
        (∀ a, Mem.read t.mem a = Mem.read st.mem a) ∧ t.launch = st.launch ∧ t.draws = st.draws)

/-- 42_ld_st.md R171: the size field 3 is refused, whatever the registers, and no written size assembles to it (spec
decision D21). -/
def Obligations.SizeThreeRefused : Prop :=
  (∀ n : Int, byteszField n ≠ some 3#2) ∧
  ∀ (d s : RegIx) (st : State),
    exec (.ld d s 3#2) st = .refused (.sizeReserved (encode (.ld d s 3#2))) ∧
    exec (.st d s 3#2) st = .refused (.sizeReserved (encode (.st d s 3#2))) ∧
    exec (.push d s 3#2) st = .refused (.sizeReserved (encode (.push d s 3#2))) ∧
    exec (.pop d s 3#2) st = .refused (.sizeReserved (encode (.pop d s 3#2)))

/-- 42_ld_st.md R172: `PUSH` and `POP` with one register in both fields are refused, in every written form; `LD` and `ST`
are never refused so (spec decision D20). -/
def Obligations.PushPopSameRegisterRefused : Prop :=
  (∀ (d : RegIx) (w : BitVec 2) (st : State) (v : Word),
    exec (.ld d d w) st ≠ .refused (.pushPopSameRegister v) ∧ exec (.st d d w) st ≠ .refused (.pushPopSameRegister v)) ∧
  ∀ (d : RegIx) (w : BitVec 2) (st : State), w ≠ 3#2 →
    exec (.push d d w) st = .refused (.pushPopSameRegister (encode (.push d d w))) ∧
    exec (.pop d d w) st = .refused (.pushPopSameRegister (encode (.pop d d w))) ∧
    exec (.pushWord d d) st = .refused (.pushPopSameRegister (encode (.pushWord d d))) ∧
    exec (.popWord d d) st = .refused (.pushPopSameRegister (encode (.popWord d d))) ∧
    exec (.pushShort 30#5) st = .refused (.pushPopSameRegister (encode (.pushShort 30#5))) ∧
    exec (.popShort 30#5) st = .refused (.pushPopSameRegister (encode (.popShort 30#5)))

/-- 20_memory.md R55: a data access whose address is not a multiple of its size raises the misaligned fault with that
address; a 1-byte access never does (spec decision D25). -/
def Obligations.MisalignedAccessFaults : Prop :=
  (∀ (a v b p : Word) (s : State), memRead a .byte s ≠ .fault (.misalignedAccess b p) ∧
    memWrite a .byte v s ≠ .fault (.misalignedAccess b p)) ∧
  ∀ (d s : RegIx) (w : BitVec 2) (st : State), w ≠ 3#2 →
    ((readReg s st).toNat % 2 ^ w.toNat ≠ 0 →
      exec (.ld d s w) st = .fault (.misalignedAccess (readReg s st) st.pc) ∧
      (d ≠ s → exec (.pop d s w) st = .fault (.misalignedAccess (readReg s st) st.pc))) ∧
    ((readReg d st).toNat % 2 ^ w.toNat ≠ 0 →
      exec (.st d s w) st = .fault (.misalignedAccess (readReg d st) st.pc)) ∧
    ((readReg d st - BitVec.ofNat 32 (2 ^ w.toNat)).toNat % 2 ^ w.toNat ≠ 0 → d ≠ s →
      exec (.push d s w) st = .fault (.misalignedAccess (readReg d st - BitVec.ofNat 32 (2 ^ w.toNat)) st.pc))

/-- 20_memory.md R57: `MemRead(a, n)`. Misaligned, then unmapped, else the bytes at consecutive addresses, none past the
top of the space (spec decisions D25, D26). -/
def Obligations.MemReadOrder : Prop :=
  ∀ (a : Word) (sz : Size) (s : State),
    (a.toNat % sz.bytes ≠ 0 → memRead a sz s = .fault (.misalignedAccess a s.pc)) ∧
    (a.toNat % sz.bytes = 0 → (∃ k < sz.bytes, s.launch.kind (a.toNat + k) = .unmapped) →
      memRead a sz s = .fault (.accessFault a s.pc)) ∧
    (a.toNat % sz.bytes = 0 → (∀ k < sz.bytes, s.launch.kind (a.toNat + k) ≠ .unmapped) →
      memRead a sz s = .next ((List.range sz.bytes).map fun k => Mem.read s.mem (a.toNat + k)) ∧
      a.toNat + sz.bytes ≤ 2 ^ 32)

/-- 20_memory.md R58: `MemWrite(a, n, v)`. Misaligned, then unmapped, then a byte in `Text`, else every byte of the access
is written and nothing else changes (spec decisions D25, D26, D28). -/
def Obligations.MemWriteOrder : Prop :=
  ∀ (a v : Word) (sz : Size) (s : State),
    (a.toNat % sz.bytes ≠ 0 → memWrite a sz v s = .fault (.misalignedAccess a s.pc)) ∧
    (a.toNat % sz.bytes = 0 → (∃ k < sz.bytes, s.launch.kind (a.toNat + k) = .unmapped) →
      memWrite a sz v s = .fault (.accessFault a s.pc)) ∧
    (a.toNat % sz.bytes = 0 → (∀ k < sz.bytes, s.launch.kind (a.toNat + k) ≠ .unmapped) →
      (∃ k < sz.bytes, s.launch.kind (a.toNat + k) = .text) → memWrite a sz v s = .refused (.storeToText a)) ∧
    (a.toNat % sz.bytes = 0 → (∀ k < sz.bytes, s.launch.kind (a.toNat + k) = .data) →
      ∃ t, memWrite a sz v s = .next t ∧
        (∀ k < sz.bytes, Mem.read t.mem (a.toNat + k) = v.extractLsb' (8 * k) 8) ∧
        (∀ b, (∀ k < sz.bytes, b ≠ a.toNat + k) → Mem.read t.mem b = Mem.read s.mem b) ∧
        t.regs = s.regs ∧ t.pc = s.pc ∧ t.flags = s.flags ∧ t.launch = s.launch ∧ t.draws = s.draws)

/-- A load of the bytes a store has just written gives the value stored, cut to the size and zero-extended
(20_memory.md section 7; 42_ld_st.md). -/
def Obligations.LoadAfterStore : Prop :=
  ∀ (d s x : RegIx) (w : BitVec 2) (st t : State), exec (.st d s w) st = .next t →
    ∃ u, exec (.ld x d w) t = .next u ∧ (readReg x u).toNat = (readReg s st).toNat % 2 ^ (8 * 2 ^ w.toNat)

/-- 42_ld_st.md, POP: `PUSH <d>, <s>, <w>` followed by `POP <x>, <d>, <w>` leaves `r<d>` as it was and puts the low bytes
of the value pushed, zero-extended, in `r<x>` (spec decision D19). -/
def Obligations.PopUndoesPush : Prop :=
  ∀ (d s x : RegIx) (w : BitVec 2) (st t : State), x ≠ d → exec (.push d s w) st = .next t →
    ∃ u, exec (.pop x d w) t = .next u ∧ readReg d u = readReg d st ∧
      (readReg x u).toNat = (readReg s st).toNat % 2 ^ (8 * 2 ^ w.toNat) ∧
      (∀ j, j ≠ x → readReg j u = readReg j st)

/-- 20_memory.md R54: the byte at the lowest address of an access holds bits 7 to 0 of the value, and so on; a 4-byte value stored at `a` is seen by a 1-byte read at `a + i` as `v[8i+7:8i]` and by a 2-byte
read at `a + 2j` as `v[16j+15:16j]`, lowest byte first, and instruction fetch has the same order (spec decision D24). -/
def Obligations.WordSeenThroughNarrowReads : Prop :=
  (∀ (a v : Word) (sz : Size) (s t : State), memWrite a sz v s = .next t →
    ∀ k < sz.bytes, Mem.read t.mem (a.toNat + k) = v.extractLsb' (8 * k) 8) ∧
  (∀ (a : Word) (sz : Size) (s : State) (bs : List Byte), memRead a sz s = .next bs →
    ∀ k < 4, (loadValue bs).extractLsb' (8 * k) 8 = if k < sz.bytes then Mem.read s.mem (a.toNat + k) else 0#8) ∧
  (∀ (a v : Word) (s t : State), memWrite a .word v s = .next t →
    (∀ i < 4, memRead (a + BitVec.ofNat 32 i) .byte t = .next [v.extractLsb' (8 * i) 8]) ∧
    (∀ j < 2, memRead (a + BitVec.ofNat 32 (2 * j)) .half t =
      .next [v.extractLsb' (16 * j) 8, v.extractLsb' (16 * j + 8) 8])) ∧
  ∀ (s : State) (w : Word), fetch s = .next w → ∀ i < 4, w.extractLsb' (8 * i) 8 = Mem.read s.mem (byteAddr s.pc i)

/-! ### ADDI -/

/-- 43_addi.md R186: `ADDI` completes in every state: `x[d]` becomes `x[d]` plus the sign-extended immediate modulo
`2^32`; no other register and no memory changes; nothing traps (spec decision D22). The flags are free values. -/
def Obligations.AddiAddsSignedImmediate : Prop :=
  ∀ (d : RegIx) (imm : BitVec 16) (s : State),
    ∃ t, exec (.addi d imm) s = .next t ∧ t.pc = s.pc + 4#32 ∧
      (readReg d t).toNat = (((readReg d s).toNat + imm.toInt) % 2 ^ 32).toNat ∧
      (∀ j, j ≠ d → readReg j t = readReg j s) ∧ (∀ a, Mem.read t.mem a = Mem.read s.mem a) ∧ t.launch = s.launch

/-- Each flag after `ADDI` is a draw of its own, and the next `ADDI` draws further on (43_addi.md, flags; 00_scope.md section 6). The
form of the draws, a counter and an uninterpreted function of it, is the MODEL's: log entry 9. -/
def Obligations.AddiFlagsAreFreshDraws : Prop :=
  ∀ (d : RegIx) (imm : BitVec 16) (s t : State), exec (.addi d imm) s = .next t →
    t.flags.c = Config.draw s.draws ∧ t.flags.z = Config.draw (s.draws + 1) ∧ t.flags.v = Config.draw (s.draws + 2) ∧
      t.flags.n = Config.draw (s.draws + 3) ∧ t.draws = s.draws + 4

/-! ### One step -/

/-- When the run has not ended, the four bytes at `pc` are in `Text` and decode to an instruction, the step is the meaning
of that instruction at that state, with nothing around it (00_scope.md section 6; 20_memory.md section 3). -/
def Obligations.StepRunsDecodedInstruction : Prop :=
  ∀ (s : State) (i : Instr) (rest : List Byte), s.pc ≠ s.launch.endAddr →
    (∀ k < 4, s.launch.kind (byteAddr s.pc k) = .text) → decodeBytes (bytesAt s.mem s.pc 4) = .ok (i, rest) →
    step s = exec i s

/-- Where the run has not ended, a fetch with a byte unmapped faults, and one with a byte in `Data` and none unmapped is
refused (20_memory.md section 3; spec decision D38; the order is that of 60_exceptions.md section 1). -/
def Obligations.FetchOutsideTextStops : Prop :=
  ∀ (s : State) (k : Nat), s.pc ≠ s.launch.endAddr → k < 4 →
    (s.launch.kind (byteAddr s.pc k) = .unmapped → step s = .fault (.accessFault s.pc s.pc)) ∧
    (s.launch.kind (byteAddr s.pc k) = .data → (∀ j < 4, s.launch.kind (byteAddr s.pc j) ≠ .unmapped) →
      step s = .refused (.fetchOutsideText s.pc))

/-- At `END_ADDR` there is no step (70_reset_and_hazards.md section 3). That the model answers a refusal of its own there
is the MODEL's choice: log entry 10. -/
def Obligations.NoStepAfterTheEnd : Prop :=
  ∀ s : State, s.pc = s.launch.endAddr → step s = .refused (.runEnded s.pc)

/-- A word placed by `withFetchWord` is the one the next step decodes and runs, whatever the state: the MODEL's way to load
a word (log entry 8). -/
def Obligations.PlacedWordRunsNext : Prop :=
  ∀ (s : State) (w : Nat) (i : Instr), decodeTableWord 32 w = some i →
    step (s.withFetchWord 32 w) = exec i (s.withFetchWord 32 w)

/-- A placed word the decoder refuses is refused by the step under the same name (30_encoding.md section Part E;
log entry 8). -/
def Obligations.PlacedWordRefusedByName : Prop :=
  ∀ (s : State) (w : Word),
    (decodeWord w = .error (.reservedBits w) → step (s.withFetchWord 32 w.toNat) = .refused (.reservedBits w)) ∧
    (∀ op, decodeWord w = .error (.opcodeNotShown op) →
      step (s.withFetchWord 32 w.toNat) = .refused (.opcodeNotShown op))

/-! ### The whole machine -/

/-- 10_state.md R25: every instruction that completes, and so every step that does, sets `pc` to the next word modulo
`2^32`; `UND` and `MOVL<c>` never complete; a fault records the `pc` of the faulting instruction (spec decision D4). A
fault or a refusal gives no next state, so it moves nothing. -/
def Obligations.EveryStepAdvancesByFour : Prop :=
  (∀ (s : State) (e : Fault), step s = .fault e → faultPc e = s.pc) ∧
  (∀ s t : State, step s = .next t → t.pc = s.pc + 4#32) ∧
  (∀ (i : Instr) (s t : State), exec i s = .next t → t.pc = s.pc + 4#32) ∧
  ∀ (p : BitVec 24) (cc : Cond) (m : RegMap) (d r : RegIx) (s : State),
    ¬ completes (exec (.und p) s) ∧ ¬ completes (exec (.movlReg cc d r) s) ∧
    ¬ completes (exec (.movlRead cc d m r) s) ∧ ¬ completes (exec (.movlWrite cc m d r) s)

/-- Every step keeps `pc` a multiple of 4 and memory in its canonical form (10_state.md section 2; 20_memory.md
section 1; the canonical form is the MODEL's representation of memory). -/
def Obligations.StepKeepsInvariant : Prop :=
  ∀ s t : State, s.Inv → step s = .next t → t.Inv

/-- Program text is immutable (20_memory.md section 7; spec decision D28): no step changes a byte that is not in `Data`, and
none changes which bytes are. -/
def Obligations.TextIsImmutable : Prop :=
  ∀ s t : State, step s = .next t →
    (∀ a, s.launch.kind a ≠ .data → Mem.read t.mem a = Mem.read s.mem a) ∧ t.launch = s.launch

/-- No instruction but `ADDI` changes a flag (10_state.md section 3; spec decisions D14, D23). -/
def Obligations.OnlyAddiWritesFlags : Prop :=
  ∀ (i : Instr) (s t : State), isAddi i = false → exec i s = .next t → t.flags = s.flags

/-- No instruction but `MOV<c>` with a condition other than Never and Always depends on the flags: with any other flags
it stops or completes alike, and leaves the same registers, memory and `pc` (10_state.md section 3). -/
def Obligations.OnlyConditionalMovesReadFlags : Prop :=
  ∀ (i : Instr) (s t : State) (f : Flags),
    (testedCond i = none ∨ testedCond i = some .nv ∨ testedCond i = some .al) → exec i s = .next t →
    ∃ u, exec i { s with flags := f } = .next u ∧ u.regs = t.regs ∧ u.mem = t.mem ∧ u.pc = t.pc ∧ u.launch = t.launch

/-- Every general register but those the table of 10_state.md section 1 lists for the instruction is unchanged. -/
def Obligations.OnlyListedRegistersChange : Prop :=
  ∀ (i : Instr) (s t : State) (j : RegIx), exec i s = .next t → j ∉ writtenRegs i → readReg j t = readReg j s

/-- No instruction but `ST` and `PUSH` changes memory (20_memory.md section 1). -/
def Obligations.OnlyStoresWriteMemory : Prop :=
  ∀ (i : Instr) (s t : State), isStore i = false → exec i s = .next t → ∀ a, Mem.read t.mem a = Mem.read s.mem a

/-- A run of `n` steps that all complete has moved `pc` by `4 n` (10_state.md section 2: no surviving instruction
branches). -/
def Obligations.RunIsAStraightLine : Prop :=
  ∀ (n : Nat) (s t : State), runSteps n s = .next t →
    t.pc = s.pc + BitVec.ofNat 32 (4 * n) ∧ t.launch = s.launch ∧ (s.Inv → t.Inv)

/-- Every run ends, faults or is refused within `(END_ADDR - pc) / 4` steps, from every state whose `pc` and `END_ADDR` are
multiples of 4 (70_reset_and_hazards.md section 3; the distance is taken modulo `2^32`). That a further step of an ended
run is a refusal is the MODEL's choice: log entry 10. -/
def Obligations.EveryRunEndsInTime : Prop :=
  ∀ (s : State) (n : Nat), s.pc.toNat % 4 = 0 → s.launch.endAddr.toNat % 4 = 0 →
    (s.launch.endAddr - s.pc).toNat / 4 < n → ¬ completes (runSteps n s)

/-- No run, of any length, changes a byte outside `Data`: the words the machine executes are those it was launched with
(20_memory.md section 7; 70_reset_and_hazards.md section 2, `TextImmutable`). -/
def Obligations.RunKeepsText : Prop :=
  ∀ (n : Nat) (s t : State) (a : Nat), runSteps n s = .next t → s.launch.kind a ≠ .data →
    Mem.read t.mem a = Mem.read s.mem a

/-! ### Shifted registers, the memory map, the launch premises -/

/-- 30_encoding.md Part A, `SGPR`: a general register, `<<`, and an absolute immediate of 0 to 31. The operand so written, as a
term and as the text the spec's example shows, gives the register and the count; no other count, no register of another
map and no symbol is one. That the operand's field is the register's index and its count is `shiftOf`, and how the text
is read (decimal count, blanks beside the `<<`, no text without a shift), is the MODEL's choice: log entry 42. -/
def Obligations.ShiftedRegistersReadBack : Prop :=
  (∀ (link : LinkParameters) (i : RegIx) (n : Nat) (at' : Word), n ≤ 31 →
    fieldOf link .sgpr at' (.shifted .gpr i n) = some i.toNat ∧ shiftOf (.shifted .gpr i n) = some (BitVec.ofNat 5 n) ∧
      parseSgpr (printWritten (.shifted .gpr i n)) = some (.shifted .gpr i n)) ∧
  (∀ (link : LinkParameters) (m : RegMap) (i : RegIx) (n : Int) (at' : Word), ¬ (m = .gpr ∧ 0 ≤ n ∧ n ≤ 31) →
    fieldOf link .sgpr at' (.shifted m i n) = none) ∧
  (∀ (text : List Char) (x : Written), parseSgpr text = some x →
    ∃ (i : RegIx) (n : Nat), n ≤ 31 ∧ x = .shifted .gpr i n) ∧
  (∀ (link : LinkParameters) (a at' : Word) (h : Option Half) (pcrel : Bool), fieldOf link .sgpr at' (.sym a h pcrel) = none) ∧
  printWritten (.shifted .gpr 3#5 4) = "r3 << 4".toList

/-- The memory map is made of 4-byte blocks of one kind each, so that `Text` and `Data` are disjoint, and `State.reset`
meets what the spec asks of the parameters: `RESET_VECTOR` and `END_ADDR` are multiples of 4 and `RESET_VECTOR` is in
`Text` (20_memory.md sections 1 and 5). The addresses themselves are the MODEL's choice: log entries 2, 3, 6. -/
def Obligations.MemoryMapIsBlockwise : Prop :=
  (∀ (l : Launch) (a b : Nat), a / 4 = b / 4 → l.kind a = l.kind b) ∧
  (∀ (l : Launch) (a : Word) (sz : Size) (j k : Nat), a.toNat % sz.bytes = 0 → j < sz.bytes → k < sz.bytes →
    l.kind (byteAddr a j) = l.kind (byteAddr a k)) ∧
  AlignedEntry State.reset.launch State.reset.pc

/-- What the model does meets the premises that speak of the outside: in a run that goes as the decisions say, nothing but
a store changes memory, nothing but the instruction at `pc` changes `pc`, a register or a flag, and `Text` does not change
(70_reset_and_hazards.md section 2). The form of the premises is the MODEL's: log entry 43. -/
def Obligations.ModelRunsMeetThePremises : Prop :=
  ∀ observed : List State, DecisionsHold observed →
    NoOtherWriter observed ∧ NoInterrupts observed ∧ TextImmutable observed

/-- Under the launch premises the run executes the program's words in order: the `k`-th state seen is that of `k` steps
from the launch, its `pc` is `RESET_VECTOR + 4 k`, and where the program has a `k`-th word and the run has not ended, the
fetch there reads the word and the step is that of the word (70_reset_and_hazards.md sections 2 and 3). Nothing is assumed
or said of the bytes at `END_ADDR`. The form of the premises is the MODEL's: log entries 43 and 44. -/
def Obligations.LaunchedRunExecutesTheProgram : Prop :=
  ∀ (start : Result State) (s : State) (rv : Word) (program : List Word) (observed : List State),
    LaunchPremises start s rv program observed → ∀ (k : Nat) (t : State), observed[k]? = some t →
      runSteps k s = .next t ∧ t.pc = rv + BitVec.ofNat 32 (4 * k) ∧
        ∀ w, program[k]? = some w → ¬ t.final → fetch t = .next w ∧
          step t = andThen (decodeFetched w) fun i => exec i t

/-- Under the launch premises no run of the program meets an unmapped address (70_reset_and_hazards.md section 2;
20_memory.md section 4). The form of the premises is the MODEL's: log entry 43. -/
def Obligations.LaunchedRunTouchesOnlyMapped : Prop :=
  ∀ (start : Result State) (s : State) (rv : Word) (program : List Word) (observed : List State),
    LaunchPremises start s rv program observed →
      ∀ (n : Nat) (a p : Word), runSteps n s ≠ .fault (.accessFault a p)

/-! ### The configuration record -/

/-- The configuration record has the spec's values, whatever the OPEN rows, which are arguments; the widths written in the
types, the places the encoder puts each field at, and what bytes, loads, stack addresses and the flags of `ADDI` come to
are those of the record (00_scope.md section 5). That the decoder cuts the fields where the encoder puts them is
`DecodeOfEncodeIsCore` and `EncodeOfDecodeIsWord`. The form of the record is the MODEL's: log entry 45. -/
def Obligations.ParametersAreAsDecided : Prop :=
  ∀ (launch : LaunchParameters) (link : LinkParameters) (p : Parameters), p = Parameters.of launch link →
    (p.xlen = 32 ∧ p.alen = 32 ∧ p.ngpr = 32 ∧ p.ilen = 32 ∧ p.ncoproc = 4) ∧
    (p.mapGpr = 0#3 ∧ p.mapIo = 3#3 ∧ p.mapSys = 1#3 ∧ p.mapInfo = 2#3 ∧ ∀ k, (p.mapCo k).toNat = 4 + k.toNat) ∧
    (p.layout.opcode = 24 ∧ p.layout.d = 19 ∧ p.layout.s = 14 ∧ p.layout.c = 10 ∧ p.layout.m = 7 ∧ p.layout.r = 6 ∧
      p.layout.l = 5 ∧ p.layout.w = 12 ∧ p.layout.p = 11 ∧ p.layout.k = 0 ∧ p.layout.imm = 0 ∧ p.layout.payload = 0) ∧
    (p.endian = .little ∧ p.ldExtend = .zero ∧ p.addiFlags = .draw) ∧
    (∀ a n, p.stackRule.storeAt a n = a - n ∧ p.stackRule.afterLoad a n = a + n) ∧
    (p.toLaunchParameters = launch ∧ p.toLinkParameters = link) ∧
    (Word = BitVec p.xlen ∧ Word = BitVec p.alen ∧ 8 * Config.instrBytes = p.ilen ∧
      ∀ s : State, s.regs.toList.length = p.ngpr) ∧
    (∀ m : RegMap, m.number = match m with
      | .gpr => p.mapGpr | .sys => p.mapSys | .info => p.mapInfo | .io => p.mapIo | .co k => p.mapCo k) ∧
    (∀ (base : Word) (sz : Size), pushAddr base sz = p.stackRule.storeAt base (BitVec.ofNat 32 sz.bytes) ∧
      popNext base sz = p.stackRule.afterLoad base (BitVec.ofNat 32 sz.bytes)) ∧
    (∀ (d s : RegIx) (cc : Cond) (m : RegMap) (r l : BitVec 1), encodeRRC d s cc m r l =
      place p.layout.opcode 0x02#8 ||| place p.layout.d d ||| place p.layout.s s ||| place p.layout.c cc.number |||
        place p.layout.m m.number ||| place p.layout.r r ||| place p.layout.l l) ∧
    (∀ (op : BitVec 8) (d s : RegIx) (w : BitVec 2) (b : BitVec 1), encodeRRW op d s w b =
      place p.layout.opcode op ||| place p.layout.d d ||| place p.layout.s s ||| place p.layout.w w |||
        place p.layout.p b) ∧
    (∀ (k : BitVec 6) (d : RegIx) (imm : BitVec 16) (payload : BitVec 24),
      encodeK6 k = place p.layout.opcode 0x01#8 ||| place p.layout.k k ∧
      encodeRI16 d imm = place p.layout.opcode 0x08#8 ||| place p.layout.d d ||| place p.layout.imm imm ∧
      encodeP24 payload = place p.layout.opcode 0x00#8 ||| place p.layout.payload payload) ∧
    (∀ (bs : List Byte) (n : Nat) (v : Word),
      wordOfBytes bs = (match p.endian with | .little => leWord bs | .big => leWord bs.reverse) ∧
      bytesOfWord n v = (match p.endian with | .little => leBytes n v | .big => (leBytes n v).reverse)) ∧
    (∀ bs : List Byte, loadValue bs = match p.ldExtend with
      | .zero => wordOfBytes bs
      | .sign => BitVec.ofInt 32 (Int.bmod (wordOfBytes bs).toNat (2 ^ (8 * bs.length)))) ∧
    (∀ (d : RegIx) (imm : BitVec 16) (s t : State), exec (.addi d imm) s = .next t →
      t.flags = match p.addiFlags with
        | .draw => drawFlags s.draws
        | .reference => referenceAddFlags (readReg d s) (sextImm imm))
end

