-- ==== Sys2Proof/Laws/Config.lean ====
section
/-!
SUPPORT. What the definitions that read the configuration record come to at the values of the spec (00_scope.md R6): the
lemmas a proof cites instead of unfolding the record.
-/

namespace Sys2Proof

section Layout
@[simp] theorem Config.layout_opcode : Config.decided.layout.opcode = 24 := rfl
@[simp] theorem Config.layout_d : Config.decided.layout.d = 19 := rfl
@[simp] theorem Config.layout_s : Config.decided.layout.s = 14 := rfl
@[simp] theorem Config.layout_c : Config.decided.layout.c = 10 := rfl
@[simp] theorem Config.layout_m : Config.decided.layout.m = 7 := rfl
@[simp] theorem Config.layout_r : Config.decided.layout.r = 6 := rfl
@[simp] theorem Config.layout_l : Config.decided.layout.l = 5 := rfl
@[simp] theorem Config.layout_w : Config.decided.layout.w = 12 := rfl
@[simp] theorem Config.layout_p : Config.decided.layout.p = 11 := rfl
@[simp] theorem Config.layout_k : Config.decided.layout.k = 0 := rfl
@[simp] theorem Config.layout_imm : Config.decided.layout.imm = 0 := rfl
@[simp] theorem Config.layout_payload : Config.decided.layout.payload = 0 := rfl
end Layout

/-- The widths written in the types are those of the record (`XLEN`, `ALEN`, `ILEN`). -/
theorem Config.widths_are_decided :
    Word = BitVec Config.decided.xlen ∧ Word = BitVec Config.decided.alen ∧ Word = BitVec Config.decided.ilen :=
  ⟨rfl, rfl, rfl⟩

@[simp] theorem Config.instrBytes_eq : Config.instrBytes = 4 := rfl

/-- Data and fetch are little-endian (`ENDIAN`). -/
@[simp] theorem wordOfBytes_eq (bs : List Byte) : wordOfBytes bs = leWord bs := rfl

@[simp] theorem bytesOfWord_eq (n : Nat) (v : Word) : bytesOfWord n v = leBytes n v := rfl

namespace Machine

/-- A load extends with zeros (`LD_EXTEND`). -/
@[simp] theorem loadValue_eq (bs : List Byte) : loadValue bs = leWord bs := rfl

/-- A push lowers the address register (`STACK_RULE`). -/
theorem pushAddr_eq (base : Word) (sz : Size) : pushAddr base sz = base - sz.toWord := rfl

/-- A pop raises it (`STACK_RULE`). -/
theorem popNext_eq (base : Word) (sz : Size) : popNext base sz = base + sz.toWord := rfl

/-- The flags after `ADDI` are draws (`ADDI_FLAGS`). -/
@[simp] theorem writeAddFlags_eq (a b : Word) (s : State) : writeAddFlags a b s = writeDrawnFlags s := rfl

end Machine

end Sys2Proof
end

