-- ==== Sys2Proof/Laws/Decode.lean ====
section
/-!
SUPPORT. The small lemmas of the encoder and decoder: a field cut from where it was placed, numbers and names of
condition codes and register maps, and the bytes of a word.
-/

namespace Sys2Proof

@[simp] theorem extract_or (a b : Word) (lo n : Nat) :
    (a ||| b).extractLsb' lo n = a.extractLsb' lo n ||| b.extractLsb' lo n := by
  ext i hi
  simp

/-- A field cut at the bits it was placed at. -/
theorem extract_place_same {n : Nat} (f : BitVec n) (lo : Nat) (h : lo + n ≤ 32) :
    (place lo f).extractLsb' lo n = f := by
  ext i hi
  have : lo + i < 32 := by omega
  simp [place, this, BitVec.getLsbD_eq_getElem hi]

/-- A cut below a placed field is zero. -/
theorem extract_place_above {n k : Nat} (f : BitVec n) (lo at' : Nat) (h : at' + k ≤ lo) :
    (place lo f).extractLsb' at' k = 0#k := by
  ext i hi
  have : at' + i < lo := by omega
  simp [place, this]

/-- A cut above a placed field is zero. -/
theorem extract_place_below {n k : Nat} (f : BitVec n) (lo at' : Nat) (h : lo + n ≤ at') :
    (place lo f).extractLsb' at' k = 0#k := by
  ext i hi
  have : n ≤ at' + i - lo := by omega
  simp [place, BitVec.getLsbD_of_ge f _ this]

@[simp] theorem Cond.ofNumber_number (cc : Cond) : Cond.ofNumber cc.number = cc := by cases cc <;> rfl

@[simp] theorem Cond.number_ofNumber : ∀ k, (Cond.ofNumber k).number = k := by decide

@[simp] theorem RegMap.ofNumber_number (m : RegMap) : RegMap.ofNumber m.number = m := by
  cases m with
  | co slot => revert slot; decide
  | _ => rfl

@[simp] theorem RegMap.number_ofNumber : ∀ k, (RegMap.ofNumber k).number = k := by decide

/-- Only the general registers are map 0. -/
theorem RegMap.number_eq_zero (m : RegMap) : m.number = 0#3 ↔ m = .gpr := by
  constructor
  · intro h
    have := congrArg RegMap.ofNumber h
    rwa [RegMap.ofNumber_number] at this
  · rintro rfl
    rfl

@[simp] theorem leBytes_length (n : Nat) (v : Word) : (leBytes n v).length = n := by
  induction n generalizing v with
  | zero => rfl
  | succ n ih => simp [leBytes, ih]

/-- Laying a word out in bytes and reading it back (20_memory.md R54). -/
@[simp] theorem leWord_leBytes (v : Word) : leWord (leBytes 4 v) = v := by
  apply BitVec.eq_of_getLsbD_eq
  intro i hi
  simp only [leWord, leBytes]
  by_cases h0 : i < 8
  · simp [h0, hi]
  · by_cases h1 : i < 16
    · have : i - 8 < 8 := by omega
      simp [h0, hi, this, show i - 8 < 32 by omega, show 8 + (i - 8) = i by omega]
    · by_cases h2 : i < 24
      · simp [h0, hi, show i - 8 < 32 by omega, show ¬ i - 8 < 8 by omega, show i - 8 - 8 < 8 by omega,
          show i - 8 - 8 < 32 by omega, show 16 + (i - 8 - 8) = i by omega]
      · simp [h0, hi, show i - 8 < 32 by omega, show ¬ i - 8 < 8 by omega, show ¬ i - 8 - 8 < 8 by omega,
          show i - 8 - 8 < 32 by omega, show i - 8 - 8 - 8 < 8 by omega, show i - 8 - 8 - 8 < 32 by omega,
          show 24 + (i - 8 - 8 - 8) = i by omega]

/-- The decoder on the bytes of a word is the decoder on the word. -/
theorem decodeBytes_leBytes (v : Word) (rest : List Byte) :
    decodeBytes (leBytes 4 v ++ rest) =
      match decodeWord v with
      | .ok i => .ok (i, rest)
      | .error e => .error (.word e) := by
  have h := leWord_leBytes v
  simp only [leBytes, List.cons_append, List.nil_append, decodeBytes, wordOfBytes_eq] at h ⊢
  rw [h]
  all_goals cases decodeWord v <;> rfl

end Sys2Proof
end

