-- ==== Sys2Proof/Laws/Memory.lean ====
section
/-!
SUPPORT. The laws of memory: a byte read after a byte written, the canonical form kept by every operation, the bytes
outside a store unchanged, and a store read back.
-/

namespace Sys2Proof.Machine

/-! ### One byte -/

theorem Mem.read_erase_same (m : Mem) (a : Nat) : Mem.read (Mem.erase a m) a = Config.blankByte := by
  induction m with
  | nil => rfl
  | cons c m ih =>
    obtain ⟨k, v⟩ := c
    by_cases h : k = a
    · simpa [Mem.erase, h] using ih
    · simpa [Mem.erase, Mem.read, h] using ih

theorem Mem.read_erase_ne (m : Mem) {a b : Nat} (h : b ≠ a) : Mem.read (Mem.erase a m) b = Mem.read m b := by
  induction m with
  | nil => rfl
  | cons c m ih =>
    obtain ⟨k, v⟩ := c
    by_cases hk : k = a
    · have : k ≠ b := by omega
      simpa [Mem.erase, Mem.read, hk, Ne.symm h] using ih
    · by_cases hb : k = b
      · subst hb
        simp [Mem.erase, Mem.read, hk]
      · simpa [Mem.erase, Mem.read, hk, hb] using ih

theorem Mem.read_insert (m : Mem) (a : Nat) (v : Byte) (b : Nat) (h : Mem.read m a = Config.blankByte)
    (hn : ∀ c ∈ m, c.1 ≠ a) : Mem.read (Mem.insert a v m) b = if b = a then v else Mem.read m b := by
  induction m with
  | nil =>
    by_cases hb : a = b
    · simp [Mem.insert, Mem.read, hb]
    · simp [Mem.insert, Mem.read, hb, Ne.symm hb]
  | cons c m ih =>
    obtain ⟨k, w⟩ := c
    have hk : k ≠ a := hn (k, w) (by simp)
    have hm : Mem.read m a = Config.blankByte := by simpa [Mem.read, hk] using h
    have ih' := ih hm (fun c hc => hn c (by simp [hc]))
    by_cases hlt : k < a
    · by_cases hb : k = b
      · subst hb
        simp [Mem.insert, Mem.read, hlt, hk]
      · simpa [Mem.insert, Mem.read, hlt, hb] using ih'
    · by_cases hb : a = b
      · subst hb
        simp [Mem.insert, Mem.read, hlt]
      · simp [Mem.insert, Mem.read, hlt, hb, Ne.symm hb]

theorem Mem.erase_no_key (m : Mem) (a : Nat) : ∀ c ∈ Mem.erase a m, c.1 ≠ a := by
  induction m with
  | nil => simp [Mem.erase]
  | cons c m ih =>
    obtain ⟨k, v⟩ := c
    by_cases h : k = a
    · simpa [Mem.erase, h] using ih
    · simpa [Mem.erase, h] using ih

/-- A byte read after a byte written: the written one at its address, every other as before. -/
theorem Mem.read_write (m : Mem) (a : Nat) (v : Byte) (b : Nat) :
    Mem.read (Mem.write m a v) b = if b = a then v else Mem.read m b := by
  unfold Mem.write
  by_cases hv : v = Config.blankByte
  · rw [if_pos hv]
    by_cases hb : b = a
    · rw [if_pos hb, hb, Mem.read_erase_same, hv]
    · rw [if_neg hb, Mem.read_erase_ne m hb]
  · rw [if_neg hv, Mem.read_insert _ _ _ _ (Mem.read_erase_same m a) (Mem.erase_no_key m a)]
    by_cases hb : b = a
    · simp [hb]
    · simp [hb, Mem.read_erase_ne m hb]

/-! ### The canonical form -/

theorem Mem.above_mono {k l : Nat} {m : Mem} (h : k ≤ l) (hm : Mem.above l m = true) : Mem.above k m = true := by
  simp only [Mem.above, List.all_eq_true, decide_eq_true_eq] at *
  intro c hc
  have := hm c hc
  omega

theorem Mem.above_erase {k a : Nat} {m : Mem} (h : Mem.above k m = true) : Mem.above k (Mem.erase a m) = true := by
  induction m with
  | nil => rfl
  | cons c m ih =>
    obtain ⟨j, v⟩ := c
    simp only [Mem.above, List.all_cons, Bool.and_eq_true, decide_eq_true_eq] at h
    have ih' := ih h.2
    by_cases hj : j = a
    · simpa [Mem.erase, hj] using ih'
    · simp only [Mem.erase, hj, if_false, Mem.above, List.all_cons, Bool.and_eq_true, decide_eq_true_eq]
      exact ⟨h.1, ih'⟩

theorem Mem.above_insert {k a : Nat} {v : Byte} {m : Mem} (ha : k < a) (h : Mem.above k m = true) :
    Mem.above k (Mem.insert a v m) = true := by
  induction m with
  | nil => simp [Mem.insert, Mem.above, ha]
  | cons c m ih =>
    obtain ⟨j, w⟩ := c
    simp only [Mem.above, List.all_cons, Bool.and_eq_true, decide_eq_true_eq] at h
    have ih' := ih h.2
    by_cases hj : j < a
    · simp only [Mem.insert, hj, if_true, Mem.above, List.all_cons, Bool.and_eq_true, decide_eq_true_eq]
      exact ⟨h.1, ih'⟩
    · simp only [Mem.insert, hj, if_false, Mem.above, List.all_cons, Bool.and_eq_true, decide_eq_true_eq]
      exact ⟨ha, h.1, h.2⟩

theorem Mem.erase_wf {m : Mem} (a : Nat) (h : Mem.wf m = true) : Mem.wf (Mem.erase a m) = true := by
  induction m with
  | nil => rfl
  | cons c m ih =>
    obtain ⟨k, v⟩ := c
    simp only [Mem.wf, Bool.and_eq_true] at h
    by_cases hk : k = a
    · simpa [Mem.erase, hk] using ih h.2
    · simp only [Mem.erase, hk, if_false, Mem.wf, Bool.and_eq_true]
      exact ⟨⟨⟨Mem.above_erase h.1.1.1, h.1.1.2⟩, h.1.2⟩, ih h.2⟩

theorem Mem.insert_wf {m : Mem} {a : Nat} {v : Byte} (ha : a < 2 ^ 32) (hv : v ≠ Config.blankByte)
    (hn : ∀ c ∈ m, c.1 ≠ a) (h : Mem.wf m = true) : Mem.wf (Mem.insert a v m) = true := by
  induction m with
  | nil =>
    simp only [Mem.insert, Mem.wf, Mem.above, List.all_nil, Bool.true_and, Bool.and_true, Bool.and_eq_true,
      decide_eq_true_eq, bne_iff_ne]
    exact ⟨ha, hv⟩
  | cons c m ih =>
    obtain ⟨k, w⟩ := c
    have hk : k ≠ a := hn (k, w) (by simp)
    have hn' : ∀ c ∈ m, c.1 ≠ a := fun c hc => hn c (by simp [hc])
    simp only [Mem.wf, Bool.and_eq_true] at h
    by_cases hlt : k < a
    · simp only [Mem.insert, hlt, if_true, Mem.wf, Bool.and_eq_true]
      exact ⟨⟨⟨Mem.above_insert hlt h.1.1.1, h.1.1.2⟩, h.1.2⟩, ih hn' h.2⟩
    · have hak : a < k := by omega
      simp only [Mem.insert, hlt, if_false, Mem.wf, Bool.and_eq_true, decide_eq_true_eq, bne_iff_ne, ne_eq]
      refine ⟨⟨⟨?_, ha⟩, hv⟩, ⟨⟨h.1.1.1, ?_⟩, ?_⟩, h.2⟩
      · have := Mem.above_mono (Nat.le_of_lt hak) h.1.1.1
        simp only [Mem.above, List.all_cons, Bool.and_eq_true, decide_eq_true_eq]
        exact ⟨hak, this⟩
      · simpa using h.1.1.2
      · simpa using h.1.2

/-- Writing a byte keeps the canonical form. -/
theorem Mem.write_wf {m : Mem} {a : Nat} (v : Byte) (ha : a < 2 ^ 32) (h : Mem.wf m = true) :
    Mem.wf (Mem.write m a v) = true := by
  unfold Mem.write
  by_cases hv : v = Config.blankByte
  · rw [if_pos hv]
    exact Mem.erase_wf a h
  · rw [if_neg hv]
    exact Mem.insert_wf ha hv (Mem.erase_no_key m a) (Mem.erase_wf a h)

/-- Writing bytes keeps the canonical form. -/
theorem writeBytes_wf {m : Mem} (a : Word) (bs : List Byte) (h : Mem.wf m = true) :
    Mem.wf (writeBytes m a bs) = true := by
  induction bs generalizing m a with
  | nil => exact h
  | cons b bs ih => exact ih _ (Mem.write_wf b a.isLt h)

/-- Below every listed address memory reads as unlisted. -/
theorem Mem.read_of_above {m : Mem} {a k : Nat} (h : Mem.above k m = true) (ha : a ≤ k) :
    Mem.read m a = Config.blankByte := by
  induction m with
  | nil => rfl
  | cons c m ih =>
    obtain ⟨j, v⟩ := c
    simp only [Mem.above, List.all_cons, Bool.and_eq_true, decide_eq_true_eq] at h
    have : j ≠ a := by omega
    simpa [Mem.read, this] using ih h.2

/-- Two memories in canonical form that read alike are the same list: equal memories are equal data. -/
theorem Mem.ext_of_wf {m m' : Mem} (h : Mem.wf m = true) (h' : Mem.wf m' = true)
    (hr : ∀ a, Mem.read m a = Mem.read m' a) : m = m' := by
  induction m generalizing m' with
  | nil =>
    cases m' with
    | nil => rfl
    | cons c m' =>
      obtain ⟨k, v⟩ := c
      simp only [Mem.wf, Bool.and_eq_true, bne_iff_ne] at h'
      have := hr k
      simp only [Mem.read, if_true] at this
      exact absurd this.symm h'.1.2
  | cons c m ih =>
    obtain ⟨k, v⟩ := c
    simp only [Mem.wf, Bool.and_eq_true, bne_iff_ne] at h
    cases m' with
    | nil =>
      have := hr k
      simp only [Mem.read, if_true] at this
      exact absurd this h.1.2
    | cons c' m' =>
      obtain ⟨k', v'⟩ := c'
      simp only [Mem.wf, Bool.and_eq_true, bne_iff_ne] at h'
      have hk : k = k' := by
        rcases Nat.lt_trichotomy k k' with hlt | heq | hgt
        · have e := hr k
          have n : k' ≠ k := by omega
          simp only [Mem.read, if_true, n, if_false] at e
          rw [Mem.read_of_above h'.1.1.1 (Nat.le_of_lt hlt)] at e
          exact absurd e h.1.2
        · exact heq
        · have e := hr k'
          have n : k ≠ k' := by omega
          simp only [Mem.read, if_true, n, if_false] at e
          rw [Mem.read_of_above h.1.1.1 (Nat.le_of_lt hgt)] at e
          exact absurd e.symm h'.1.2
      subst hk
      have hv : v = v' := by simpa [Mem.read] using hr k
      subst hv
      congr 1
      refine ih h.2 h'.2 fun a => ?_
      by_cases ha : k = a
      · subst ha
        rw [Mem.read_of_above h.1.1.1 (Nat.le_refl _), Mem.read_of_above h'.1.1.1 (Nat.le_refl _)]
      · simpa [Mem.read, ha] using hr a

/-! ### The bytes of an access -/

@[simp] theorem byteAddr_zero (a : Word) : byteAddr a 0 = a.toNat := by simp [byteAddr]

theorem byteAddr_succ (a : Word) (i : Nat) : byteAddr (a + 1#32) i = byteAddr a (i + 1) := by
  unfold byteAddr
  congr 1
  rw [BitVec.add_assoc, BitVec.add_right_inj]
  apply BitVec.eq_of_toNat_eq
  simp [BitVec.toNat_add, BitVec.toNat_ofNat]
  omega

theorem byteAddr_lt (a : Word) (i : Nat) : byteAddr a i < 2 ^ 32 := (a + BitVec.ofNat 32 i).isLt

/-- Bytes outside a store read as before. -/
theorem read_writeBytes_outside (m : Mem) (a : Word) (bs : List Byte) (b : Nat)
    (h : ∀ i < bs.length, b ≠ byteAddr a i) : Mem.read (writeBytes m a bs) b = Mem.read m b := by
  induction bs generalizing m a with
  | nil => rfl
  | cons v bs ih =>
    have h0 : b ≠ a.toNat := by simpa using h 0 (by simp)
    have hs : ∀ i < bs.length, b ≠ byteAddr (a + 1#32) i := fun i hi => by
      rw [byteAddr_succ]
      exact h (i + 1) (by simpa using hi)
    rw [writeBytes, ih _ _ hs, Mem.read_write, if_neg h0]

theorem byteAddr_inj (a : Word) {i j : Nat} (hi : i < 2 ^ 32) (hj : j < 2 ^ 32) (h : byteAddr a i = byteAddr a j) :
    i = j := by
  have := BitVec.eq_of_toNat_eq h
  rw [BitVec.add_right_inj] at this
  have := congrArg BitVec.toNat this
  simp only [BitVec.toNat_ofNat] at this
  omega

/-- A byte of a store reads as the byte stored. -/
theorem read_writeBytes_inside (m : Mem) (a : Word) (bs : List Byte) (hlen : bs.length < 2 ^ 32) (i : Nat)
    (hi : i < bs.length) : Mem.read (writeBytes m a bs) (byteAddr a i) = bs[i] := by
  induction bs generalizing m a i with
  | nil => simp at hi
  | cons v bs ih =>
    rw [List.length_cons] at hlen hi
    cases i with
    | zero =>
      rw [writeBytes, read_writeBytes_outside, Mem.read_write]
      · simp
      · intro j hj
        rw [byteAddr_succ]
        intro e
        have := byteAddr_inj a (by omega) (by omega) e
        omega
    | succ i =>
      rw [writeBytes, ← byteAddr_succ]
      simpa using ih (Mem.write m a.toNat v) (a + 1#32) (by omega) i (by omega)

/-- A store read back at its own address gives the bytes stored. -/
theorem bytesAt_writeBytes (m : Mem) (a : Word) (bs : List Byte) (hlen : bs.length < 2 ^ 32) :
    bytesAt (writeBytes m a bs) a bs.length = bs := by
  apply List.ext_getElem
  · simp [bytesAt]
  · intro i h1 h2
    simp [bytesAt, read_writeBytes_inside m a bs hlen i h2]

/-- The memory after reset is in canonical form. -/
theorem reset_mem_wf : Mem.wf State.reset.mem = true := rfl

end Sys2Proof.Machine
end

