-- ==== Sys2Proof/Laws/State.lean ====
section
/-!
SUPPORT. What each update of the state leaves in each field, and reading a register after writing one.
-/

namespace Sys2Proof.Machine

section WriteReg
variable (i : RegIx) (v : Word) (s : State)

@[simp] theorem writeReg_pc : (writeReg i v s).pc = s.pc := rfl
@[simp] theorem writeReg_flags : (writeReg i v s).flags = s.flags := rfl
@[simp] theorem writeReg_mem : (writeReg i v s).mem = s.mem := rfl
@[simp] theorem writeReg_launch : (writeReg i v s).launch = s.launch := rfl
@[simp] theorem writeReg_draws : (writeReg i v s).draws = s.draws := rfl

@[simp] theorem readReg_writeReg_same : readReg i (writeReg i v s) = v := by
  simp [readReg, writeReg]

theorem readReg_writeReg_ne {j : RegIx} (h : j ≠ i) : readReg j (writeReg i v s) = readReg j s := by
  have : i.toNat ≠ j.toNat := fun e => h (BitVec.eq_of_toNat_eq e).symm
  simp [readReg, writeReg, Vector.getElem_set_ne, this]

/-- Reading any register after writing one. -/
theorem readReg_writeReg (j : RegIx) : readReg j (writeReg i v s) = if j = i then v else readReg j s := by
  split
  · rename_i h
    rw [h, readReg_writeReg_same]
  · rename_i h
    exact readReg_writeReg_ne i v s h

end WriteReg

section Advance
variable (s : State)

@[simp] theorem advance_regs : (advance s).regs = s.regs := rfl
@[simp] theorem advance_pc : (advance s).pc = s.pc + 4#32 := rfl
@[simp] theorem advance_flags : (advance s).flags = s.flags := rfl
@[simp] theorem advance_mem : (advance s).mem = s.mem := rfl
@[simp] theorem advance_launch : (advance s).launch = s.launch := rfl
@[simp] theorem advance_draws : (advance s).draws = s.draws := rfl
@[simp] theorem readReg_advance (i : RegIx) : readReg i (advance s) = readReg i s := rfl

end Advance

section WriteDrawnFlags
variable (s : State)

@[simp] theorem writeDrawnFlags_regs : (writeDrawnFlags s).regs = s.regs := rfl
@[simp] theorem writeDrawnFlags_pc : (writeDrawnFlags s).pc = s.pc := rfl
@[simp] theorem writeDrawnFlags_flags : (writeDrawnFlags s).flags = drawFlags s.draws := rfl
@[simp] theorem writeDrawnFlags_mem : (writeDrawnFlags s).mem = s.mem := rfl
@[simp] theorem writeDrawnFlags_launch : (writeDrawnFlags s).launch = s.launch := rfl
@[simp] theorem writeDrawnFlags_draws : (writeDrawnFlags s).draws = s.draws + 4 := rfl
@[simp] theorem readReg_writeDrawnFlags (i : RegIx) : readReg i (writeDrawnFlags s) = readReg i s := rfl

end WriteDrawnFlags

section SetMem
variable (s : State) (m : Mem)

@[simp] theorem setMem_regs : (State.mk s.regs s.pc s.flags m s.launch s.draws).regs = s.regs := rfl
@[simp] theorem readReg_setMem (i : RegIx) : readReg i (State.mk s.regs s.pc s.flags m s.launch s.draws) = readReg i s :=
  rfl

end SetMem

/-- Two states whose registers read alike hold the same registers. -/
theorem regs_ext {s t : State} (h : ∀ i, readReg i s = readReg i t) : s.regs = t.regs := by
  apply Vector.ext
  intro k hk
  have := h (BitVec.ofNat 5 k)
  have e : (BitVec.ofNat 5 k).toNat = k := by simp [BitVec.toNat_ofNat]; omega
  simpa [readReg, e] using this

end Sys2Proof.Machine
end

