-- ==== Sys2Proof/Laws/Ops.lean ====
section
/-!
SUPPORT. What each shared operation can do when it answers a next state, and when it does: the lemmas a proof cites
instead of unfolding the operation.
-/

namespace Sys2Proof.Machine

@[simp] theorem andThen_next {α β : Type} (a : α) (f : α → Result β) : andThen (.next a) f = f a := rfl
@[simp] theorem andThen_fault {α β : Type} (e : Fault) (f : α → Result β) : andThen (.fault e) f = .fault e := rfl
@[simp] theorem andThen_refused {α β : Type} (e : Refusal) (f : α → Result β) : andThen (.refused e) f = .refused e := rfl
@[simp] theorem andThen_raise {α β : Type} (e : Fault) (f : α → Result β) : andThen (raise e) f = .fault e := rfl
@[simp] theorem andThen_refuse {α β : Type} (e : Refusal) (f : α → Result β) : andThen (refuse e) f = .refused e := rfl

/-- Two operations in a row answer only if both do. -/
theorem andThen_eq_next {α β : Type} {r : Result α} {f : α → Result β} {b : β} :
    andThen r f = .next b ↔ ∃ a, r = .next a ∧ f a = .next b := by
  cases r <;> simp [andThen]

theorem raise_ne_next {α : Type} {e : Fault} {a : α} : (raise e : Result α) ≠ .next a := nofun

theorem refuse_ne_next {α : Type} {e : Refusal} {a : α} : (refuse e : Result α) ≠ .next a := nofun

/-- A data read answers exactly the bytes at the address, where it is allowed. -/
theorem memRead_eq_next {a : Word} {sz : Size} {s : State} {bs : List Byte} :
    memRead a sz s = .next bs ↔ readable a sz s = true ∧ bs = bytesAt s.mem a sz.bytes := by
  unfold memRead readable
  cases aligned a sz <;> cases anyByte s.launch a sz.bytes .unmapped <;>
    simp [raise, eq_comm]

/-- A data write answers exactly the state with the bytes stored, where it is allowed. -/
theorem memWrite_eq_next {a : Word} {sz : Size} {v : Word} {s t : State} :
    memWrite a sz v s = .next t ↔
      writable a sz s = true ∧ t = { s with mem := writeBytes s.mem a (leBytes sz.bytes v) } := by
  unfold memWrite writable readable
  cases aligned a sz <;> cases anyByte s.launch a sz.bytes .unmapped <;> cases anyByte s.launch a sz.bytes .text <;>
    simp [raise, refuse, eq_comm]

/-- A fetch answers exactly the word at `pc`, where no byte of it is unmapped or `Data`. -/
theorem fetch_eq_next {s : State} {w : Word} :
    fetch s = .next w ↔
      anyByte s.launch s.pc Config.instrBytes .unmapped = false ∧ anyByte s.launch s.pc Config.instrBytes .data = false ∧
        w = leWord (bytesAt s.mem s.pc Config.instrBytes) := by
  unfold fetch
  cases anyByte s.launch s.pc Config.instrBytes .unmapped <;> cases anyByte s.launch s.pc Config.instrBytes .data <;>
    simp [raise, refuse, eq_comm]

/-- Decoding a fetched word answers exactly what the decoder gives. -/
theorem decodeFetched_eq_next {w : Word} {i : Instr} : decodeFetched w = .next i ↔ decodeWord w = .ok i := by
  unfold decodeFetched
  split <;> simp_all [refuse]

/-- An operation with a size answers only with a size that the field names. -/
theorem withSize_eq_next {α : Type} {w : BitVec 2} {enc : Word} {f : Size → Result α} {a : α} :
    withSize w enc f = .next a ↔ ∃ sz, Size.ofField w = some sz ∧ f sz = .next a := by
  unfold withSize
  cases Size.ofField w <;> simp [refuse]

/-- The sizes in bytes. -/
theorem Size.bytes_cases (sz : Size) : sz.bytes = 1 ∨ sz.bytes = 2 ∨ sz.bytes = 4 := by cases sz <;> decide

/-- The field 3 names no size (42_ld_st.md R171). -/
theorem Size.ofField_eq_none : ∀ w, Size.ofField w = none ↔ w = 3#2 := by decide

end Sys2Proof.Machine
end

