-- ==== Sys2Proof/Laws/Access.lean ====
section
/-!
SUPPORT. An aligned access byte by byte: its addresses do not wrap, when it is allowed, what a load gives and what a store
leaves at each address; and the size a field names.
-/

namespace Sys2Proof.Machine

/-- A size field other than 3 names the size `2^w` (42_ld_st.md R166). -/
theorem Size.ofField_some : ∀ w : BitVec 2, w ≠ 3#2 → ∃ sz, Size.ofField w = some sz ∧ sz.bytes = 2 ^ w.toNat := by
  decide

/-- The size a field names has `2^w` bytes (42_ld_st.md R166). -/
theorem Size.bytes_of_ofField {w : BitVec 2} {sz : Size} (h : Size.ofField w = some sz) : sz.bytes = 2 ^ w.toNat := by
  revert w
  cases sz <;> decide

/-- An aligned access does not wrap: its bytes are at consecutive addresses (20_memory.md R57). -/
theorem byteAddr_of_aligned {a : Word} {sz : Size} (h : a.toNat % sz.bytes = 0) {k : Nat} (hk : k < sz.bytes) :
    byteAddr a k = a.toNat + k := by
  have := a.isLt
  unfold byteAddr
  rw [BitVec.toNat_add, BitVec.toNat_ofNat]
  cases sz <;> simp only [Size.bytes] at h hk ⊢ <;> omega

theorem anyByte_eq_false {l : Launch} {a : Word} {n : Nat} {k : Kind} :
    anyByte l a n k = false ↔ ∀ i < n, l.kind (byteAddr a i) ≠ k := by
  simp [anyByte]

theorem anyByte_eq_true {l : Launch} {a : Word} {n : Nat} {k : Kind} :
    anyByte l a n k = true ↔ ∃ i < n, l.kind (byteAddr a i) = k := by
  simp [anyByte]

theorem aligned_iff {a : Word} {sz : Size} : aligned a sz = true ↔ a.toNat % sz.bytes = 0 := by simp [aligned]

/-- When an aligned read is allowed, byte by byte. -/
theorem readable_of {a : Word} {sz : Size} {s : State} (h : a.toNat % sz.bytes = 0)
    (hk : ∀ k < sz.bytes, s.launch.kind (a.toNat + k) ≠ .unmapped) : readable a sz s = true := by
  simp only [readable, Bool.and_eq_true, Bool.not_eq_true', aligned_iff, anyByte_eq_false]
  exact ⟨h, fun i hi => byteAddr_of_aligned h hi ▸ hk i hi⟩

/-- When an aligned write is allowed, byte by byte. -/
theorem writable_of {a : Word} {sz : Size} {s : State} (h : a.toNat % sz.bytes = 0)
    (hk : ∀ k < sz.bytes, s.launch.kind (a.toNat + k) = .data) : writable a sz s = true := by
  simp only [writable, Bool.and_eq_true, Bool.not_eq_true', anyByte_eq_false]
  refine ⟨readable_of h fun k hk' => by rw [hk k hk']; decide, fun i hi => ?_⟩
  rw [byteAddr_of_aligned h hi, hk i hi]
  decide

/-- Byte `k` of the value of bytes is byte `k` of the list, or zero past its end. -/
theorem leWord_byte (bs : List Byte) {k : Nat} (hk : k < 4) : (leWord bs).extractLsb' (8 * k) 8 = bs.getD k 0#8 := by
  induction bs generalizing k with
  | nil => simp [leWord]
  | cons b bs ih =>
    cases k with
    | zero =>
      apply BitVec.eq_of_getLsbD_eq
      intro i hi
      simp [leWord, hi, show i < 32 by omega]
    | succ k =>
      rw [List.getD_cons_succ, ← ih (show k < 4 by omega)]
      apply BitVec.eq_of_getLsbD_eq
      intro i hi
      simp only [leWord, BitVec.getLsbD_extractLsb', BitVec.getLsbD_or, BitVec.getLsbD_shiftLeft,
        BitVec.getLsbD_setWidth, show 8 * (k + 1) + i - 8 = 8 * k + i by omega,
        BitVec.getLsbD_of_ge b (8 * (k + 1) + i) (by omega), show 8 * (k + 1) + i < 32 by omega,
        show ¬ 8 * (k + 1) + i < 8 by omega, hi, decide_true, decide_false, Bool.and_false, Bool.or_false, Bool.true_and,
        Bool.not_false]

/-- Byte `k` of the bytes of a word is bits `8k+7` to `8k` (20_memory.md R54). -/
theorem leBytes_getElem? {n : Nat} (v : Word) {k : Nat} (hk : k < n) :
    (leBytes n v)[k]? = some (v.extractLsb' (8 * k) 8) := by
  induction n generalizing v k with
  | zero => omega
  | succ n ih =>
    cases k with
    | zero =>
      simp only [leBytes, List.getElem?_cons_zero, Option.some.injEq]
      apply BitVec.eq_of_getLsbD_eq
      intro i hi
      simp [hi]
    | succ k =>
      simp only [leBytes, List.getElem?_cons_succ]
      rw [ih _ (by omega)]
      congr 1
      apply BitVec.eq_of_getLsbD_eq
      intro i hi
      simp [hi, show 8 + (8 * k + i) = 8 * (k + 1) + i by omega]

/-- Byte `k` of what a load gives: the byte in memory, or zero past the size (42_ld_st.md R167). -/
theorem loadValue_byte (m : Mem) {a : Word} {sz : Size} (h : a.toNat % sz.bytes = 0) {k : Nat} (hk : k < 4) :
    (loadValue (bytesAt m a sz.bytes)).extractLsb' (8 * k) 8 =
      if k < sz.bytes then Mem.read m (a.toNat + k) else 0#8 := by
  rw [loadValue_eq, leWord_byte _ hk]
  by_cases hh : k < sz.bytes
  · rw [if_pos hh, List.getD_eq_getElem?_getD]
    simp [bytesAt, hh, byteAddr_of_aligned h hh]
  · rw [if_neg hh]
    simp [bytesAt, hh]

/-- Byte `k` of a store reads as byte `k` of the value stored (20_memory.md R58). -/
theorem read_store_inside (m : Mem) {a : Word} (v : Word) {sz : Size} (h : a.toNat % sz.bytes = 0) {k : Nat}
    (hk : k < sz.bytes) :
    Mem.read (writeBytes m a (leBytes sz.bytes v)) (a.toNat + k) = v.extractLsb' (8 * k) 8 := by
  rw [← byteAddr_of_aligned h hk]
  have hl : (leBytes sz.bytes v).length = sz.bytes := leBytes_length _ _
  have := sz.bytes_cases
  rw [read_writeBytes_inside m a _ (by omega) k (by omega)]
  have := leBytes_getElem? v hk
  rw [List.getElem?_eq_getElem (by omega)] at this
  exact Option.some.inj this

/-- A byte outside a store reads as before (20_memory.md R58). -/
theorem read_store_outside (m : Mem) {a : Word} (v : Word) {sz : Size} (h : a.toNat % sz.bytes = 0) {b : Nat}
    (hb : ∀ k < sz.bytes, b ≠ a.toNat + k) :
    Mem.read (writeBytes m a (leBytes sz.bytes v)) b = Mem.read m b := by
  apply read_writeBytes_outside
  intro i hi
  rw [leBytes_length] at hi
  rw [byteAddr_of_aligned h hi]
  exact hb i hi

/-- What an access allowed says of its bytes. -/
theorem kind_of_writable {a : Word} {sz : Size} {s : State} (h : writable a sz s = true) {k : Nat} (hk : k < sz.bytes) :
    s.launch.kind (a.toNat + k) = .data := by
  simp only [writable, readable, Bool.and_eq_true, Bool.not_eq_true', aligned_iff, anyByte_eq_false] at h
  have h1 := h.1.2 k hk
  have h2 := h.2 k hk
  rw [byteAddr_of_aligned h.1.1 hk] at h1 h2
  cases e : s.launch.kind (a.toNat + k) with
  | text => exact absurd e h2
  | data => rfl
  | unmapped => exact absurd e h1

/-- A placed word is what the next fetch reads. -/
theorem bytesAt_placeWord (w : Word) (s : State) : bytesAt (placeWord w s).mem s.pc 4 = leBytes 4 w := by
  have h := bytesAt_writeBytes s.mem s.pc (leBytes 4 w) (by rw [leBytes_length]; decide)
  rwa [leBytes_length] at h

/-- The bytes a placed word lies in are `Text`. -/
theorem kind_placeWord (w : Word) (s : State) {k : Nat} (hk : k < 4) :
    (placeWord w s).launch.kind (byteAddr s.pc k) = .text := by
  have hb : byteAddr s.pc k / 4 = byteAddr s.pc 0 / 4 ∨ byteAddr s.pc k / 4 = byteAddr s.pc 3 / 4 := by
    have := s.pc.isLt
    simp only [byteAddr, BitVec.toNat_add, BitVec.toNat_ofNat]
    omega
  apply if_pos
  simp only [placeWord, List.any_cons, Span.has, blockAt, Bool.or_eq_true, Bool.and_eq_true, decide_eq_true_eq]
  rcases hb with e | e
  · left
    omega
  · right
    left
    omega

end Sys2Proof.Machine
end

