-- ==== Sys2Proof/Laws/PerInstr.lean ====
section
/-!
SUPPORT. The family `CoreRow`, one lemma per constructor: the row that a written form abbreviates (30_encoding.md R126) has
the same word, is a row of its own, and is well formed when the form is.
-/

namespace Sys2Proof.Laws.CoreRow

def Statement (i : Instr) : Prop :=
  encode i.core = encode i ∧ i.core.core = i.core ∧ (i.wf = true → i.core.wf = true)

theorem und (p : BitVec 24) : Statement (.und p) := ⟨rfl, rfl, id⟩
theorem pause (k : BitVec 6) : Statement (.pause k) := ⟨rfl, rfl, id⟩
theorem nop : Statement .nop := ⟨rfl, rfl, id⟩
theorem movcReg (cc : Cond) (d s : RegIx) : Statement (.movcReg cc d s) := ⟨rfl, rfl, id⟩
theorem movcRegR1 (cc : Cond) (d s : RegIx) : Statement (.movcRegR1 cc d s) := ⟨rfl, rfl, id⟩
theorem movcRead (cc : Cond) (d : RegIx) (m : RegMap) (s : RegIx) : Statement (.movcRead cc d m s) := ⟨rfl, rfl, id⟩
theorem movcWrite (cc : Cond) (m : RegMap) (d s : RegIx) : Statement (.movcWrite cc m d s) := ⟨rfl, rfl, id⟩
theorem movReg (d s : RegIx) : Statement (.movReg d s) := ⟨rfl, rfl, id⟩
theorem movRead (d : RegIx) (m : RegMap) (s : RegIx) : Statement (.movRead d m s) := ⟨rfl, rfl, id⟩
theorem movWrite (m : RegMap) (d s : RegIx) : Statement (.movWrite m d s) := ⟨rfl, rfl, id⟩
theorem movlReg (cc : Cond) (d s : RegIx) : Statement (.movlReg cc d s) := ⟨rfl, rfl, id⟩
theorem movlRead (cc : Cond) (d : RegIx) (m : RegMap) (s : RegIx) : Statement (.movlRead cc d m s) := ⟨rfl, rfl, id⟩
theorem movlWrite (cc : Cond) (m : RegMap) (d s : RegIx) : Statement (.movlWrite cc m d s) := ⟨rfl, rfl, id⟩
theorem ld (d s : RegIx) (w : BitVec 2) : Statement (.ld d s w) := ⟨rfl, rfl, id⟩
theorem st (d s : RegIx) (w : BitVec 2) : Statement (.st d s w) := ⟨rfl, rfl, id⟩
theorem ldWord (d s : RegIx) : Statement (.ldWord d s) := ⟨rfl, rfl, id⟩
theorem stWord (d s : RegIx) : Statement (.stWord d s) := ⟨rfl, rfl, id⟩
theorem push (d s : RegIx) (w : BitVec 2) : Statement (.push d s w) := ⟨rfl, rfl, id⟩
theorem pop (d s : RegIx) (w : BitVec 2) : Statement (.pop d s w) := ⟨rfl, rfl, id⟩
theorem pushWord (d s : RegIx) : Statement (.pushWord d s) := ⟨rfl, rfl, id⟩
theorem popWord (d s : RegIx) : Statement (.popWord d s) := ⟨rfl, rfl, id⟩
theorem pushShort (s : RegIx) : Statement (.pushShort s) := ⟨rfl, rfl, id⟩
theorem popShort (d : RegIx) : Statement (.popShort d) := ⟨rfl, rfl, id⟩
theorem addi (d : RegIx) (imm : BitVec 16) : Statement (.addi d imm) := ⟨rfl, rfl, id⟩

end Sys2Proof.Laws.CoreRow
end

