-- ==== Sys2Proof/Laws/Premises.lean ====
section
/-!
SUPPORT. What a step that completes has run, a run taken one step at a time from either end, when a fetch reads a given
word, and which addresses the data access of an instruction has: the lemmas that a proof about the launch premises cites.
-/

namespace Sys2Proof.Machine

/-- A step of a run that has not ended: fetch, decode, execute (60_exceptions.md R205). -/
theorem step_of_not_final {s : State} (h : ¬ s.final) :
    step s = andThen (fetch s) fun w => andThen (decodeFetched w) fun i => exec i s := if_neg h

/-- A step that completes has run the instruction at `pc`. -/
theorem instrAt_of_step {s t : State} (h : step s = .next t) : ∃ i, instrAt s = some i ∧ exec i s = .next t := by
  unfold step at h
  split at h
  · cases h
  · obtain ⟨w, hw, h⟩ := andThen_eq_next.1 h
    obtain ⟨i, hi, h⟩ := andThen_eq_next.1 h
    exact ⟨i, by simp [instrAt, hw, hi], h⟩

@[simp] theorem runSteps_zero (s : State) : runSteps 0 s = .next s := rfl

/-- A run, its first step apart. -/
theorem runSteps_step (n : Nat) (s : State) : runSteps (n + 1) s = andThen (step s) (runSteps n) := by
  simp only [runSteps, Host.Core.run, Sys2Proof.core]
  cases step s <;> rfl

/-- A run, its last step apart. -/
theorem runSteps_succ (n : Nat) (s : State) : runSteps (n + 1) s = andThen (runSteps n s) step := by
  induction n generalizing s with
  | zero =>
    rw [runSteps_step]
    cases h : step s <;> simp [h]
  | succ n ih =>
    rw [runSteps_step, runSteps_step n]
    cases step s <;> simp [ih]

/-- The four bytes at `pc`, all in `Text` and those of a word: the fetch reads the word (20_memory.md R54, R56). -/
theorem fetch_of_text {t : State} {w : Word}
    (h : ∀ j < 4, t.launch.kind (byteAddr t.pc j) = .text ∧ Mem.read t.mem (byteAddr t.pc j) = w.extractLsb' (8 * j) 8) :
    fetch t = .next w := by
  rw [fetch_eq_next, anyByte_eq_false, anyByte_eq_false]
  refine ⟨fun i hi => by rw [(h i hi).1]; decide, fun i hi => by rw [(h i hi).1]; decide, ?_⟩
  have hb : bytesAt t.mem t.pc Config.instrBytes = leBytes 4 w := by
    apply List.ext_getElem?
    intro j
    by_cases hj : j < 4
    · rw [leBytes_getElem? w hj, ← (h j hj).2]
      simp [bytesAt, Config.instrBytes, hj]
    · rw [List.getElem?_eq_none (by simp [bytesAt, Config.instrBytes]; omega),
        List.getElem?_eq_none (by rw [leBytes_length]; omega)]
  rw [hb, leWord_leBytes]

/-- An address is of the kind of its 4-byte block (20_memory.md R51). -/
theorem kind_eq_of_block (l : Launch) {a b : Nat} (h : a / 4 = b / 4) : l.kind a = l.kind b := by
  simp [Launch.kind, Span.has, h]

/-- The bytes of an aligned access are those the instruction touches. -/
theorem mem_dataBytes {i : Instr} {s : State} {a : Word} {sz : Size} (h : dataAccess i s = some (a, sz))
    (ha : aligned a sz = true) {b : Nat} : b ∈ dataBytes i s ↔ ∃ k < sz.bytes, byteAddr a k = b := by
  simp [dataBytes, h, ha]

end Sys2Proof.Machine
end

