-- ==== Sys2Proof/Tests/Slice0.lean ====
section
/-!
SUPPORT. The model's own tests: words and outcomes from spec/95_test_vectors.md (the number of each vector stands beside
its test), the checks of WellFormed, and for every statement with hypotheses a concrete state that meets them.
-/

namespace Sys2Proof.Tests

open Sys2Proof.Machine Sys2Proof.Asm

/-! ### A small state (95_test_vectors.md section 2.6) -/

/-- Registers 0 but for the four given. -/
def regs (x1 x2 x5 x30 : Word) : Vector Word 32 :=
  (((Vector.replicate 32 0#32).set 1 x1).set 2 x2).set 5 x5 |>.set 30 x30

/-- `Data` 0x2000 to 0x2FFF and the last word of the space; the bytes of section 2.6; `pc` 0x1000. -/
def base (x1 x2 x5 x30 : Word) (f : Flags) : State :=
  State.launchState (regs x1 x2 x5 x30) f
    { resetVector := 0x1000#32
      endAddr := 0x1004#32
      mem :=
        { text := [⟨0x400, 1⟩]
          data := [⟨0x800, 0x400⟩, ⟨0x3FFFFFFF, 1⟩]
          bytes :=
            [(0x2000, 0x78#8), (0x2001, 0x56#8), (0x2002, 0x34#8), (0x2003, 0x12#8), (0x2004, 0xF0#8), (0x2005, 0xDE#8),
             (0x2006, 0xBC#8), (0x2007, 0x9A#8)] } }

/-- A linker: the base of a pc-relative value is the instruction's own address, and `HI` is the plain bits 31 to 16. The
spec leaves both OPEN; no expected value below but those of `test_link` rests on them. -/
def link : LinkParameters := { pcrelBase := id, hiRule := fun v => v.extractLsb' 16 16 }

def flags0 : Flags := { c := false, z := true, v := false, n := false }

/-- The start of section 2.6. -/
def s0 : State := base 0xA1B2C3D4#32 0x2000#32 0x55#32 0x3000#32 flags0

/-- The same with another value in `x[2]`. -/
def s2 (x2 : Word) : State := base 0xA1B2C3D4#32 x2 0x55#32 0x3000#32 flags0

/-- The same with another value in `x[30]`. -/
def s30 (x30 : Word) : State := base 0xA1B2C3D4#32 0x2000#32 0x55#32 x30 flags0

/-- One step of the machine with a word placed at `pc`. -/
def run (w : Word) (s : State) : Result State := step (placeWord w s)

def nextOf : Result State → Option State
  | .next t => some t
  | .fault _ => none
  | .refused _ => none

def faultOf : Result State → Option Fault
  | .next _ => none
  | .fault e => some e
  | .refused _ => none

def refusalOf : Result State → Option Refusal
  | .next _ => none
  | .fault _ => none
  | .refused e => some e

/-- A register after a step. -/
def regAfter (i : RegIx) (r : Result State) : Option Word := (nextOf r).map (readReg i)

/-- Bytes of memory after a step. -/
def memAfter (a : Word) (n : Nat) (r : Result State) : Option (List Byte) := (nextOf r).map fun t => bytesAt t.mem a n

/-- `pc` after a step. -/
def pcAfter (r : Result State) : Option Word := (nextOf r).map (·.pc)

def isNext (r : Result State) : Bool := (nextOf r).isSome

theorem next_of_isNext {r : Result State} (h : isNext r = true) : ∃ t, r = .next t := by
  cases r with
  | next t => exact ⟨t, rfl⟩
  | fault _ => cases h
  | refused _ => cases h

/-! ### WellFormed: each check refuses an ill-formed term -/

theorem test_wf_movcRead_gpr : (Instr.movcRead .al 1#5 .gpr 2#5).wf = false := by decide
theorem test_wf_movcWrite_gpr : (Instr.movcWrite .al .gpr 1#5 2#5).wf = false := by decide
theorem test_wf_movRead_gpr : (Instr.movRead 1#5 .gpr 2#5).wf = false := by decide
theorem test_wf_movWrite_gpr : (Instr.movWrite .gpr 1#5 2#5).wf = false := by decide
theorem test_wf_movlRead_gpr : (Instr.movlRead .al 1#5 .gpr 2#5).wf = false := by decide

/-! ### Decoding: a word written out from the encoding, for every constructor -/

/-- Vectors C1, A3, A4, A2. -/
theorem test_decode_und_pause :
    decodeWord 0x00ABCDEF#32 = .ok (.und 0xABCDEF#24) ∧ decodeWord 0x01000005#32 = .ok (.pause 5#6) ∧
    decodeWord 0x0100003F#32 = .ok (.pause 63#6) ∧ decodeWord 0x01000000#32 = .ok Instr.nop.core := by decide

/-- Vectors A13, A15, C8, A7, A9, A11, A8, A10. -/
theorem test_decode_movc :
    decodeWord 0x02190800#32 = .ok (.movcReg .z 3#5 4#5) ∧ decodeWord 0x02088000#32 = .ok (.movcReg .nv 1#5 2#5) ∧
    decodeWord 0x0208BC40#32 = .ok (.movcRegR1 .al 1#5 2#5) ∧
    decodeWord 0x0210FD00#32 = .ok (.movcRead .al 2#5 .info 3#5) ∧
    decodeWord 0x02397D80#32 = .ok (.movcRead .al 7#5 .io 5#5) ∧
    decodeWord 0x024FFF80#32 = .ok (.movcRead .al 9#5 (.co 3#2) 31#5) ∧
    decodeWord 0x0229FDC0#32 = .ok (.movcWrite .al .io 5#5 7#5) ∧
    decodeWord 0x02027E40#32 = .ok (.movcWrite .al (.co 0#2) 0#5 9#5) := by decide

/-- Vectors A12, A5, A6: `MOV` is `MOVAL`. -/
theorem test_decode_mov :
    decodeWord 0x0208BC00#32 = .ok (Instr.movReg 1#5 2#5).core ∧
    decodeWord 0x02083C80#32 = .ok (Instr.movRead 1#5 .sys 0#5).core ∧
    decodeWord 0x02007CC0#32 = .ok (Instr.movWrite .sys 0#5 1#5).core := by decide

/-- Vectors A16, A17; the other two words are `d=1 s=2 c=5 l=1` with `m=3`, `r` 0 and 1 (R114). -/
theorem test_decode_movl :
    decodeWord 0x0208BC20#32 = .ok (.movlReg .al 1#5 2#5) ∧ decodeWord 0x02089420#32 = .ok (.movlReg .lt 1#5 2#5) ∧
    decodeWord 0x020895A0#32 = .ok (.movlRead .lt 1#5 .io 2#5) ∧
    decodeWord 0x020895E0#32 = .ok (.movlWrite .lt .io 1#5 2#5) := by decide

/-- Vectors A19 to A24, C9. -/
theorem test_decode_ld_st :
    decodeWord 0x03189000#32 = .ok (.ld 3#5 2#5 1#2) ∧ decodeWord 0x0318B000#32 = .ok (.ld 3#5 2#5 3#2) ∧
    decodeWord 0x0318A000#32 = .ok (Instr.ldWord 3#5 2#5).core ∧ decodeWord 0x04104000#32 = .ok (.st 2#5 1#5 0#2) ∧
    decodeWord 0x04106000#32 = .ok (Instr.stWord 2#5 1#5).core := by decide

/-- Vectors A25 to A28. -/
theorem test_decode_push_pop :
    decodeWord 0x04F06800#32 = .ok (Instr.pushShort 1#5).core ∧
    decodeWord 0x04F06800#32 = .ok (Instr.pushWord 30#5 1#5).core ∧
    decodeWord 0x030FA800#32 = .ok (Instr.popShort 1#5).core ∧
    decodeWord 0x030FA800#32 = .ok (Instr.popWord 1#5 30#5).core ∧
    decodeWord 0x04299800#32 = .ok (.push 5#5 6#5 1#2) ∧ decodeWord 0x03314800#32 = .ok (.pop 6#5 5#5 0#2) := by decide

/-- Vectors A30, A31. -/
theorem test_decode_addi :
    decodeWord 0x0808FFFF#32 = .ok (.addi 1#5 0xFFFF#16) ∧ decodeWord 0x08F88000#32 = .ok (.addi 31#5 0x8000#16) := by
  decide

/-- Vectors C2 to C5. -/
theorem test_decode_reserved :
    decodeWord 0x01000040#32 = .error (.reservedBits 0x01000040#32) ∧
    decodeWord 0x0208BC01#32 = .error (.reservedBits 0x0208BC01#32) ∧
    decodeWord 0x04106001#32 = .error (.reservedBits 0x04106001#32) ∧
    decodeWord 0x08090005#32 = .error (.reservedBits 0x08090005#32) := by decide

/-- Vectors C6, C7. -/
theorem test_decode_not_shown :
    decodeWord 0x05000000#32 = .error (.opcodeNotShown 0x05#8) ∧
    decodeWord 0x07000000#32 = .error (.opcodeNotShown 0x07#8) ∧
    decodeWord 0x09000000#32 = .error (.opcodeNotShown 0x09#8) ∧
    decodeWord 0xFFFFFFFF#32 = .error (.opcodeNotShown 0xFF#8) := by decide

/-- Section 2.1, A19: the bytes of a word in memory, and the decoder on a stream of them. -/
theorem test_bytes_of_word :
    encodeBytes (.ld 3#5 2#5 2#2) = [0x00#8, 0xA0#8, 0x18#8, 0x03#8] ∧
    decodeBytes [0x00#8, 0xA0#8, 0x18#8, 0x03#8, 0xAA#8] = .ok (.ld 3#5 2#5 2#2, [0xAA#8]) ∧
    decodeBytes [0x00#8, 0xA0#8, 0x18#8] = .error .truncated := by decide

/-- The table's words, as the host asks for them. -/
theorem test_table_word :
    decodeTableWord 32 0x04F06800 = some (.push 30#5 1#5 2#2) ∧ decodeTableWord 32 0x09000000 = none := by decide

/-! ### One step -/

/-- U1, U2. -/
theorem test_und :
    faultOf (run 0x00000000#32 s0) = some (.undefinedInstruction 0x1000#32 0x00000000#32) ∧
    faultOf (run 0x00FFFFFF#32 s0) = some (.undefinedInstruction 0x1000#32 0x00FFFFFF#32) := by decide

/-- P1 to P3. -/
theorem test_pause :
    (nextOf (run 0x01000005#32 s0)).map (fun t => (t.pc, t.flags, t.regs == s0.regs)) =
      some (0x1004#32, flags0, true) ∧
    pcAfter (run 0x0100003F#32 s0) = some 0x1004#32 := by decide

/-- P4: `pc` wraps. -/
theorem test_nop_wraps :
    pcAfter (run 0x01000000#32 { s0 with pc := 0xFFFFFFFC#32 }) = some 0x00000000#32 := by decide

/-- M3, M4: a condition true and false. -/
theorem test_movc_condition :
    regAfter 1#5 (run 0x02088800#32 s0) = some 0x2000#32 ∧
    regAfter 1#5 (run 0x02088800#32 { s0 with flags := { flags0 with z := false } }) = some 0xA1B2C3D4#32 := by decide

/-- M1, M8: `r` makes no difference with `m = 0`. -/
theorem test_movc_r_bit :
    regAfter 1#5 (run 0x0208BC00#32 s0) = some 0x2000#32 ∧ regAfter 1#5 (run 0x0208BC40#32 s0) = some 0x2000#32 := by
  decide

/-- M9, M10, M11: another map, refused even when the condition is never true. -/
theorem test_movc_maps :
    refusalOf (run 0x02083C80#32 s0) = some (.unmodelledMap 1#3 0x02083C80#32) ∧
    refusalOf (run 0x0229FDC0#32 s0) = some (.unmodelledMap 3#3 0x0229FDC0#32) ∧
    refusalOf (run 0x02088180#32 s0) = some (.unmodelledMap 3#3 0x02088180#32) := by decide

/-- M14: `r0` is not hardwired and `r31` exists. -/
theorem test_mov_r31 : regAfter 31#5 (run 0x02F83C00#32 (writeReg 0#5 9#32 s0)) = some 9#32 := by decide

/-- M12, M13. -/
theorem test_movl :
    refusalOf (run 0x0208BC20#32 s0) = some (.movlUnmodelled 0x0208BC20#32) ∧
    refusalOf (run 0x02000020#32 s0) = some (.movlUnmodelled 0x02000020#32) := by decide

/-- L1, L2, L4, L5: three widths, zero-extended. -/
theorem test_ld_widths :
    regAfter 3#5 (run 0x0318A000#32 s0) = some 0x12345678#32 ∧ regAfter 3#5 (run 0x03189000#32 s0) = some 0x5678#32 ∧
    regAfter 3#5 (run 0x03188000#32 (s2 0x2004#32)) = some 0xF0#32 ∧
    regAfter 3#5 (run 0x03189000#32 (s2 0x2006#32)) = some 0x9ABC#32 := by decide

/-- L6, L9, L10, L11, L12. -/
theorem test_ld_edges :
    faultOf (run 0x03189000#32 (s2 0x2001#32)) = some (.misalignedAccess 0x2001#32 0x1000#32) ∧
    faultOf (run 0x0318A000#32 (s2 0x8000#32)) = some (.accessFault 0x8000#32 0x1000#32) ∧
    regAfter 2#5 (run 0x0310A000#32 s0) = some 0x12345678#32 ∧
    regAfter 3#5 (run 0x0318A000#32 (s2 0x1000#32)) = some 0x0318A000#32 ∧
    refusalOf (run 0x0318B000#32 s0) = some (.sizeReserved 0x0318B000#32) := by decide

/-- T1 to T3, T6. -/
theorem test_st_widths :
    memAfter 0x2000#32 4 (run 0x04106000#32 s0) = some [0xD4#8, 0xC3#8, 0xB2#8, 0xA1#8] ∧
    memAfter 0x2000#32 4 (run 0x04105000#32 s0) = some [0xD4#8, 0xC3#8, 0x34#8, 0x12#8] ∧
    memAfter 0x2000#32 4 (run 0x04104000#32 s0) = some [0xD4#8, 0x56#8, 0x34#8, 0x12#8] ∧
    memAfter 0x2000#32 4 (run 0x0410A000#32 s0) = some [0x00#8, 0x20#8, 0x00#8, 0x00#8] := by decide

/-- T4, T5, T7. -/
theorem test_st_edges :
    faultOf (run 0x04106000#32 (s2 0x2003#32)) = some (.misalignedAccess 0x2003#32 0x1000#32) ∧
    refusalOf (run 0x04106000#32 (s2 0x1000#32)) = some (.storeToText 0x1000#32) ∧
    faultOf (run 0x04106000#32 (s2 0x3000#32)) = some (.accessFault 0x3000#32 0x1000#32) := by decide

/-- K1, K7. -/
theorem test_push :
    memAfter 0x2FFC#32 4 (run 0x04F06800#32 s0) = some [0xD4#8, 0xC3#8, 0xB2#8, 0xA1#8] ∧
    regAfter 30#5 (run 0x04F06800#32 s0) = some 0x2FFC#32 ∧
    regAfter 30#5 (run 0x04F06800#32 (s30 0#32)) = some 0xFFFFFFFC#32 := by decide

/-- K4, K5, K6. -/
theorem test_push_edges :
    faultOf (run 0x04F06800#32 (s30 0x2000#32)) = some (.accessFault 0x1FFC#32 0x1000#32) ∧
    faultOf (run 0x04F06800#32 (s30 0x2FFE#32)) = some (.misalignedAccess 0x2FFA#32 0x1000#32) ∧
    refusalOf (run 0x04F7A800#32 s0) = some (.pushPopSameRegister 0x04F7A800#32) := by decide

/-- O1, O2. -/
theorem test_pop :
    regAfter 1#5 (run 0x030FA800#32 (s30 0x2000#32)) = some 0x12345678#32 ∧
    regAfter 30#5 (run 0x030FA800#32 (s30 0x2000#32)) = some 0x2004#32 ∧
    regAfter 2#5 (run 0x0308A800#32 s0) = some 0x2004#32 := by decide

/-- O4, O5. -/
theorem test_pop_edges :
    faultOf (run 0x030FA800#32 s0) = some (.accessFault 0x3000#32 0x1000#32) ∧
    refusalOf (run 0x03F7A800#32 s0) = some (.pushPopSameRegister 0x03F7A800#32) := by decide

/-- D3, D6: the sum wraps; the immediate is signed. -/
theorem test_addi :
    regAfter 1#5 (run 0x08080001#32 (writeReg 1#5 0xFFFFFFFF#32 s0)) = some 0#32 ∧
    regAfter 1#5 (run 0x08088000#32 (writeReg 1#5 0x00010000#32 s0)) = some 0x00008000#32 := by decide

/-- R187: the flags after `ADDI` are four draws, each used once. -/
theorem test_addi_draws : (nextOf (run 0x08080000#32 s0)).map (·.draws) = some 4 := by decide

/-- R56, R205, R233: what a step does where no word is fetched. -/
theorem test_fetch_stops :
    refusalOf (step { State.reset with pc := 0x2000#32 }) = some (.fetchOutsideText 0x2000#32) ∧
    faultOf (step { s0 with pc := 0x8000#32 }) = some (.accessFault 0x8000#32 0x8000#32) ∧
    refusalOf (step { s0 with pc := 0x1004#32 }) = some (.runEnded 0x1004#32) ∧
    refusalOf (run 0x08090005#32 s0) = some (.reservedBits 0x08090005#32) := by decide

/-- With nothing placed the entry block holds zeros, the word of `UND` (40_und_pause.md R141). -/
theorem test_first_step_of_reset :
    faultOf (step State.reset) = some (.undefinedInstruction 0x1000#32 0x00000000#32) := by decide

/-- A word placed after reset is the first instruction to run. -/
theorem test_first_word_after_reset :
    regAfter 2#5 (step (State.reset.withFetchWord 32 0x08107FFF)) = some 0x7FFF#32 ∧
    pcAfter (step (State.reset.withFetchWord 32 0x04F06800)) = some 0x1004#32 := by decide

/-! ### The conditions (section 2.4, the row `0 0 0 1`) -/

theorem test_conditions :
    (List.range 16).map (fun k => condHolds (.ofNumber (BitVec.ofNat 4 k)) { c := false, z := false, v := false, n := true }) =
      [false, false, false, false, false, true, true, true, false, false, false, true, true, true, true, true] := by
  decide

/-! ### The assembler (section 2.1) -/

/-- A5, A13, A14, A18, A17, A25, A26, A30. -/
theorem test_assemble :
    assemble link "mov".toList [.reg .gpr 1#5, .reg .sys 0#5] 0#32 = some 0x02083C80#32 ∧
    assemble link "MOVeq".toList [.reg .gpr 3#5, .reg .gpr 4#5] 0#32 = some 0x02190800#32 ∧
    assemble link "MOVNO".toList [.reg .gpr 5#5, .reg .gpr 6#5] 0#32 = some 0x0229B000#32 ∧
    assemble link "MOVLT".toList [.reg .gpr 1#5, .reg .gpr 2#5] 0#32 = some 0x02089400#32 ∧
    assemble link "MOVLLT".toList [.reg .gpr 1#5, .reg .gpr 2#5] 0#32 = some 0x02089420#32 ∧
    assemble link "PUSH".toList [.reg .gpr 1#5] 0#32 = some 0x04F06800#32 ∧
    assemble link "POP".toList [.reg .gpr 1#5, .reg .gpr 30#5, .const .word] 0#32 = some 0x030FA800#32 ∧
    assemble link "ADDI".toList [.reg .gpr 1#5, .int (-1)] 0#32 = some 0x0808FFFF#32 := by decide

/-- The rejections of section 2.1. -/
theorem test_assemble_rejects :
    assemble link "PAUSE".toList [.int 64] 0#32 = none ∧ assemble link "PAUSE".toList [.sym 4#32 none false] 0#32 = none ∧
    assemble link "ADDI".toList [.reg .gpr 1#5, .int 32768] 0#32 = none ∧
    assemble link "ADDI".toList [.reg .gpr 1#5, .int (-32769)] 0#32 = none ∧
    assemble link "LD".toList [.reg .gpr 1#5, .reg .gpr 2#5, .int 8] 0#32 = none ∧
    assemble link "MOV".toList [.reg .io 1#5, .reg .sys 2#5] 0#32 = none ∧
    assemble link "MOVL".toList [.reg .gpr 1#5, .reg .gpr 2#5] 0#32 = none ∧
    assemble link "MOVXX".toList [.reg .gpr 1#5, .reg .gpr 2#5] 0#32 = none := by decide

/-- R89 to R92 with that linker: `LO`, `HI` and a distance; `@pcrel` in an `OFF20` is rejected (log entry 14). -/
theorem test_link :
    fieldOf link .uimm16 0x1000#32 (.sym 0x12345678#32 (some .lo) false) = some 0x5678 ∧
    fieldOf link .uimm16 0x1000#32 (.sym 0x12345678#32 (some .hi) false) = some 0x1234 ∧
    fieldOf link .pcrel16 0x1000#32 (.sym 0x0FF8#32 none false) = some 0xFFF8 ∧
    fieldOf link .off20 0x1000#32 (.sym 0x1008#32 none false) = some 2 ∧
    fieldOf link .off20 0x1000#32 (.sym 0x1008#32 none true) = none := by decide

/-- R81 to R87; `co4r0` and `r32` are rejected (section 2.1). -/
theorem test_parse_reg :
    parseReg "r30".toList = some (.gpr, 30#5) ∧ parseReg "sysctl".toList = some (.sys, 0#5) ∧
    parseReg "sys0".toList = some (.sys, 0#5) ∧ parseReg "info3".toList = some (.info, 3#5) ∧
    parseReg "io5".toList = some (.io, 5#5) ∧ parseReg "co3r17".toList = some (.co 3#2, 17#5) ∧
    parseReg "co4r0".toList = none ∧ parseReg "r32".toList = none := by decide

/-- The example of R82, the same without blanks, and a count, a map and a text that are none (R82, R84; log entry 42 for the
text without a shift). -/
theorem test_parse_sgpr :
    parseSgpr "r3 << 4".toList = some (.shifted .gpr 3#5 4) ∧ parseSgpr "r31<<31".toList = some (.shifted .gpr 31#5 31) ∧
    parseSgpr "r3 << 32".toList = none ∧ parseSgpr "io3 << 4".toList = none ∧ parseSgpr "r3 < 4".toList = none ∧
    parseSgpr "r3".toList = none := by decide

/-- Leading zeros: log entry 42. -/
theorem test_parse_reg_zeros : parseReg "r007".toList = some (.gpr, 7#5) := by decide

/-- C10 to C14. -/
theorem test_disassemble :
    disassemble (.pause 63#6) = some "PAUSE 63".toList ∧ disassemble .nop = some "PAUSE 0".toList ∧
    disassemble (.movReg 1#5 2#5) = some "MOVAL r1, r2".toList ∧
    disassemble (.movcReg .no 5#5 6#5) = some "MOVNO r5, r6".toList ∧
    disassemble (.pushShort 1#5) = some "PUSH r30, r1, 4".toList ∧
    disassemble (.addi 1#5 0xFFFF#16) = some "ADDI r1, -1".toList := by decide

/-! ### The hypotheses of the statements can be met -/

theorem witness_DecodeOfEncodeIsCore : (Instr.movcRead .al 1#5 .sys 0#5).wf = true ∧ Instr.nop.wf = true := by decide

theorem witness_EncodeOfDecodeIsWord : decodeWord 0x0318B000#32 = .ok (.ld 3#5 2#5 3#2) := by decide

theorem witness_AssemblerAgreesWithEncoder :
    assemblable (.movlWrite .lt .io 1#5 2#5) = true ∧ assemblable (.und 0#24) = true ∧
    assemblable (.pop 1#5 1#5 2#2) = true := by decide

theorem witness_JumpOffsetsReadBack :
    off20Field (-2097152) = some 0x80000#20 ∧ off20Field 2097148 = some 0x7FFFF#20 ∧ off20Field 2097152 = none ∧
    off20Field (-2097156) = none ∧ off20Field 2 = none := by decide

theorem witness_BitWidthsReadBack :
    bitwField 1 = some 1#5 ∧ bitwField 31 = some 31#5 ∧ bitwField 0 = none ∧ bitwField 33 = none := by decide

theorem witness_ByteSizesEncodeAsLog : byteszField 3 = none ∧ byteszField 8 = none ∧ byteszField 0 = none := by decide

theorem witness_PauseOnlyAdvances :
    (0x01000040#32).extractLsb' 24 8 = 0x01#8 ∧ (0x01000040#32).extractLsb' 6 18 ≠ 0#18 ∧
    isNext (exec (.pause 63#6) s0) = true ∧ isNext (exec .nop s0) = true := by decide

theorem witness_MovBetweenGeneralRegisters :
    regAfter 1#5 (exec (.movcReg .z 1#5 2#5) s0) = some 0x2000#32 ∧
    regAfter 1#5 (exec (.movcRegR1 .nz 1#5 2#5) s0) = some 0xA1B2C3D4#32 ∧
    regAfter 1#5 (exec (.movcRead .al 1#5 .gpr 2#5) s0) = some 0x2000#32 ∧
    regAfter 1#5 (exec (.movcWrite .al .gpr 1#5 2#5) s0) = some 0x2000#32 ∧
    regAfter 1#5 (exec (.movReg 1#5 2#5) s0) = some 0x2000#32 ∧
    regAfter 1#5 (exec (.movRead 1#5 .gpr 2#5) s0) = some 0x2000#32 ∧
    regAfter 1#5 (exec (.movWrite .gpr 1#5 2#5) s0) = some 0x2000#32 := by decide

theorem witness_MovOfOtherMapsRefused : RegMap.sys ≠ .gpr ∧ RegMap.co 3#2 ≠ .gpr := by decide

theorem witness_MovWordOutcomeOrder :
    (0x0208BC20#32).extractLsb' 24 8 = 0x02#8 ∧ decodeWord 0x0208BC20#32 = .ok (.movlReg .al 1#5 2#5) ∧
    decodeWord 0x02083C80#32 = .ok (.movcRead .al 1#5 .sys 0#5) ∧
    decodeWord 0x0208BC00#32 = .ok (.movcReg .al 1#5 2#5) ∧
    decodeWord 0x02088000#32 = .ok (.movcReg .nv 1#5 2#5) := by decide

/-- A case for each clause: completion (three widths, the last word of the space, `d = s`), size 3, misaligned,
unmapped at the last byte. -/
theorem witness_LoadZeroExtends :
    (readReg 2#5 s0).toNat % 4 = 0 ∧ (∀ k < 4, s0.launch.kind ((readReg 2#5 s0).toNat + k) ≠ .unmapped) ∧
    (∀ k < 4, (s2 0xFFFFFFFC#32).launch.kind ((readReg 2#5 (s2 0xFFFFFFFC#32)).toNat + k) ≠ .unmapped) ∧
    isNext (exec (.ld 2#5 2#5 0#2) s0) = true ∧ isNext (exec (.ldWord 3#5 2#5) s0) = true ∧
    refusalOf (exec (.ld 3#5 2#5 3#2) s0) = some (.sizeReserved 0x0318B000#32) ∧
    faultOf (exec (.ldWord 3#5 2#5) (s2 0x2FFE#32)) = some (.misalignedAccess 0x2FFE#32 0x1000#32) ∧
    faultOf (exec (.ld 3#5 2#5 0#2) (s2 0x3000#32)) = some (.accessFault 0x3000#32 0x1000#32) := by decide

/-- A case for each clause. -/
theorem witness_StoreWritesLowBytes :
    (readReg 2#5 s0).toNat % 4 = 0 ∧ (∀ k < 4, s0.launch.kind ((readReg 2#5 s0).toNat + k) = .data) ∧
    isNext (exec (.st 2#5 2#5 1#2) s0) = true ∧ isNext (exec (.stWord 2#5 1#5) s0) = true ∧
    refusalOf (exec (.st 2#5 1#5 3#2) s0) = some (.sizeReserved 0x04107000#32) ∧
    faultOf (exec (.st 2#5 1#5 1#2) (s2 0x2FFF#32)) = some (.misalignedAccess 0x2FFF#32 0x1000#32) ∧
    faultOf (exec (.stWord 2#5 1#5) (s2 0x3000#32)) = some (.accessFault 0x3000#32 0x1000#32) ∧
    refusalOf (exec (.st 2#5 1#5 0#2) (s2 0x1003#32)) = some (.storeToText 0x1003#32) := by decide

/-- A case for each clause; completion from 0x3000 down, and from 0 wrapping to the last word. -/
theorem witness_PushStoresBelow :
    (readReg 30#5 s0 - BitVec.ofNat 32 4).toNat % 4 = 0 ∧
    (∀ k < 4, s0.launch.kind ((readReg 30#5 s0 - BitVec.ofNat 32 4).toNat + k) = .data) ∧
    (∀ k < 4, (s30 0#32).launch.kind ((readReg 30#5 (s30 0#32) - BitVec.ofNat 32 4).toNat + k) = .data) ∧
    isNext (exec (.push 30#5 1#5 0#2) s0) = true ∧ isNext (exec (.pushWord 30#5 1#5) s0) = true ∧
    isNext (exec (.pushShort 1#5) s0) = true ∧
    refusalOf (exec (.push 30#5 30#5 3#2) s0) = some (.sizeReserved 0x04F7B800#32) ∧
    refusalOf (exec (.pushShort 30#5) s0) = some (.pushPopSameRegister 0x04F7A800#32) ∧
    faultOf (exec (.pushShort 1#5) (s30 0x3002#32)) = some (.misalignedAccess 0x2FFE#32 0x1000#32) ∧
    faultOf (exec (.pushShort 1#5) (s30 0x2000#32)) = some (.accessFault 0x1FFC#32 0x1000#32) ∧
    refusalOf (exec (.pushShort 1#5) (s30 0x1004#32)) = some (.storeToText 0x1000#32) := by decide

/-- A case for each clause. -/
theorem witness_PopLoadsAndRaises :
    (readReg 2#5 s0).toNat % 4 = 0 ∧ (∀ k < 4, s0.launch.kind ((readReg 2#5 s0).toNat + k) ≠ .unmapped) ∧
    isNext (exec (.pop 1#5 2#5 1#2) s0) = true ∧ isNext (exec (.popWord 1#5 2#5) s0) = true ∧
    isNext (exec (.popShort 1#5) (s30 0x2000#32)) = true ∧
    refusalOf (exec (.pop 30#5 30#5 3#2) s0) = some (.sizeReserved 0x03F7B800#32) ∧
    refusalOf (exec (.popShort 30#5) s0) = some (.pushPopSameRegister 0x03F7A800#32) ∧
    faultOf (exec (.popShort 1#5) (s30 0x2FFE#32)) = some (.misalignedAccess 0x2FFE#32 0x1000#32) ∧
    faultOf (exec (.popShort 1#5) s0) = some (.accessFault 0x3000#32 0x1000#32) := by decide

theorem witness_PushPopSameRegisterRefused :
    (0#2 : BitVec 2) ≠ 3#2 ∧ refusalOf (exec (.push 1#5 1#5 0#2) s0) = some (.pushPopSameRegister 0x04084800#32) := by
  decide

/-- A clause each for `LD` and `POP`, `ST`, `PUSH`. -/
theorem witness_MisalignedAccessFaults :
    (readReg 2#5 (s2 0x2001#32)).toNat % 2 ^ (1#2).toNat ≠ 0 ∧ (readReg 2#5 (s2 0x2002#32)).toNat % 2 ^ (2#2).toNat ≠ 0 ∧
    (readReg 30#5 (s30 0x2FFE#32) - BitVec.ofNat 32 (2 ^ (2#2).toNat)).toNat % 2 ^ (2#2).toNat ≠ 0 ∧
    (30#5 : RegIx) ≠ 1#5 := by decide

/-- A case for each clause. -/
theorem witness_MemReadOrder :
    (0x2001#32 : Word).toNat % Size.half.bytes ≠ 0 ∧ s0.launch.kind ((0x8000#32 : Word).toNat + 3) = .unmapped ∧
    (∀ k < Size.word.bytes, s0.launch.kind ((0xFFFFFFFC#32 : Word).toNat + k) ≠ .unmapped) := by decide

/-- A case for each clause. -/
theorem witness_MemWriteOrder :
    (0x2002#32 : Word).toNat % Size.word.bytes ≠ 0 ∧ s0.launch.kind ((0x3000#32 : Word).toNat + 0) = .unmapped ∧
    (∀ k < Size.word.bytes, s0.launch.kind ((0x1000#32 : Word).toNat + k) ≠ .unmapped) ∧
    s0.launch.kind ((0x1000#32 : Word).toNat + 3) = .text ∧
    (∀ k < Size.half.bytes, s0.launch.kind ((0x2FFE#32 : Word).toNat + k) = .data) := by decide

theorem witness_LoadAfterStore : ∃ t, exec (.st 2#5 1#5 1#2) s0 = .next t := next_of_isNext (by decide)

theorem witness_PopUndoesPush : (4#5 : RegIx) ≠ 30#5 ∧ ∃ t, exec (.push 30#5 1#5 2#2) s0 = .next t :=
  ⟨by decide, next_of_isNext (by decide)⟩

theorem witness_WordSeenThroughNarrowReads :
    (∃ t, memWrite 0x2000#32 .word 0xA1B2C3D4#32 s0 = .next t) ∧ fetch s0 = .next 0x00000000#32 ∧
    (∃ t, memWrite 0x2002#32 .half 0xA1B2C3D4#32 s0 = .next t) ∧ ∃ bs, memRead 0x2002#32 .half s0 = .next bs :=
  ⟨next_of_isNext (by decide), rfl, next_of_isNext (by decide), _, rfl⟩

theorem witness_ConditionNamesReadBack : parseCond "NV".toList = some .nv := by decide

theorem witness_AddiFlagsAreFreshDraws : ∃ t, exec (.addi 1#5 5#16) s0 = .next t := next_of_isNext (by decide)

/-- The state of K1: `PUSH r1` at `pc`. -/
theorem witness_StepRunsDecodedInstruction :
    (placeWord 0x04F06800#32 s0).pc ≠ (placeWord 0x04F06800#32 s0).launch.endAddr ∧
    (∀ k < 4, (placeWord 0x04F06800#32 s0).launch.kind (byteAddr (placeWord 0x04F06800#32 s0).pc k) = .text) ∧
    decodeBytes (bytesAt (placeWord 0x04F06800#32 s0).mem (placeWord 0x04F06800#32 s0).pc 4) =
      .ok (.push 30#5 1#5 2#2, []) := by decide

/-- A clause each: unmapped at 0x8000, `Data` at 0x2000. -/
theorem witness_FetchOutsideTextStops :
    s0.launch.kind (byteAddr 0x8000#32 3) = .unmapped ∧ (0x2000#32 : Word) ≠ s0.launch.endAddr ∧
    s0.launch.kind (byteAddr 0x2000#32 0) = .data ∧ (∀ j < 4, s0.launch.kind (byteAddr 0x2000#32 j) ≠ .unmapped) := by
  decide

theorem witness_NoStepAfterTheEnd : ({ s0 with pc := 0x1004#32 } : State).pc = s0.launch.endAddr := by decide

theorem witness_PlacedWordRunsNext : decodeTableWord 32 0x04F06800 = some (.push 30#5 1#5 2#2) := by decide

theorem witness_PlacedWordRefusedByName :
    decodeWord 0x01000040#32 = .error (.reservedBits 0x01000040#32) ∧
    decodeWord 0x05000000#32 = .error (.opcodeNotShown 0x05#8) := by decide

theorem witness_EveryStepAdvancesByFour :
    (∃ t, step (placeWord 0x0318A000#32 s0) = .next t) ∧
    step (placeWord 0x00000001#32 s0) = .fault (.undefinedInstruction 0x1000#32 0x00000001#32) :=
  ⟨next_of_isNext (by decide), rfl⟩

theorem witness_StepKeepsInvariant :
    (placeWord 0x04106000#32 s0).Inv ∧ ∃ t, step (placeWord 0x04106000#32 s0) = .next t :=
  ⟨⟨by decide, by decide⟩, next_of_isNext (by decide)⟩

theorem witness_TextIsImmutable :
    (∃ t, step (placeWord 0x04106000#32 s0) = .next t) ∧ (placeWord 0x04106000#32 s0).launch.kind 0x1000 ≠ .data :=
  ⟨next_of_isNext (by decide), by decide⟩

theorem witness_OnlyAddiWritesFlags :
    isAddi (.pop 1#5 2#5 2#2) = false ∧ ∃ t, exec (.pop 1#5 2#5 2#2) s0 = .next t :=
  ⟨by decide, next_of_isNext (by decide)⟩

theorem witness_OnlyConditionalMovesReadFlags :
    testedCond (.movcReg .nv 1#5 2#5) = some .nv ∧ testedCond (.addi 1#5 5#16) = none ∧
    (∃ t, exec (.movcReg .nv 1#5 2#5) s0 = .next t) ∧ ∃ t, exec (.addi 1#5 5#16) s0 = .next t :=
  ⟨by decide, by decide, next_of_isNext (by decide), next_of_isNext (by decide)⟩

theorem witness_OnlyListedRegistersChange :
    (3#5 : RegIx) ∉ writtenRegs (.pop 1#5 2#5 2#2) ∧ ∃ t, exec (.pop 1#5 2#5 2#2) s0 = .next t :=
  ⟨by decide, next_of_isNext (by decide)⟩

theorem witness_OnlyStoresWriteMemory :
    isStore (.pop 1#5 2#5 2#2) = false ∧ ∃ t, exec (.pop 1#5 2#5 2#2) s0 = .next t :=
  ⟨by decide, next_of_isNext (by decide)⟩

theorem witness_RunIsAStraightLine : ∃ t, runSteps 1 (placeWord 0x04106000#32 s0) = .next t :=
  next_of_isNext (by decide)

theorem witness_EveryRunEndsInTime :
    s0.pc.toNat % 4 = 0 ∧ s0.launch.endAddr.toNat % 4 = 0 ∧ (s0.launch.endAddr - s0.pc).toNat / 4 < 2 := by decide

theorem witness_RunKeepsText :
    (∃ t, runSteps 1 (placeWord 0x04106000#32 s0) = .next t) ∧ (placeWord 0x04106000#32 s0).launch.kind 0x1000 ≠ .data :=
  ⟨next_of_isNext (by decide), by decide⟩

theorem witness_ShiftedRegistersReadBack :
    fieldOf link .sgpr 0#32 (.shifted .gpr 31#5 31) = some 31 ∧ fieldOf link .sgpr 0#32 (.shifted .gpr 3#5 32) = none ∧
    fieldOf link .sgpr 0#32 (.shifted .gpr 3#5 (-1)) = none ∧ fieldOf link .sgpr 0#32 (.shifted .io 3#5 4) = none ∧
    parseSgpr "r0 << 0".toList = some (.shifted .gpr 0#5 0) := by decide

theorem witness_MemoryMapIsBlockwise :
    0x1000 / 4 = 0x1003 / 4 ∧ (0x1002#32 : Word).toNat % Size.half.bytes = 0 ∧ 1 < Size.half.bytes := by decide

theorem witness_ParametersAreAsDecided :
    (Parameters.of Config.resetLaunch link).layout.d = 19 ∧ (Parameters.of Config.resetLaunch link).mapCo 3#2 = 7#3 ∧
    isNext (exec (.addi 1#5 5#16) s0) = true := by decide

/-- A program of one word, `NOP`, at `RESET_VECTOR`. -/
def launched : State := placeWord 0x01000000#32 s0

/-- The run of that program: the launch state and the end. -/
def observed : List State := [launched, advance launched]

theorem follows_observed {s t : State} (h : Follows observed s t) : s = launched ∧ t = advance launched := by
  obtain ⟨k, h1, h2⟩ := h
  match k with
  | 0 => exact ⟨(Option.some.inj h1).symm, (Option.some.inj h2).symm⟩
  | k + 1 => cases h2

theorem witness_DecisionsHold : DecisionsHold observed := by
  intro s t h
  obtain ⟨rfl, rfl⟩ := follows_observed h
  rfl

theorem witness_MemDescribesLaunch : MemDescribesLaunch [0x01000000#32] launched := by
  refine ⟨fun k w h _ => ?_, fun n t h hf => ?_⟩
  · match k with
    | 0 =>
      cases h
      decide
    | k + 1 => cases h
  · match n with
    | 0 =>
      cases h
      decide
    | 1 =>
      cases h
      exact absurd rfl hf
    | n + 2 => cases h

theorem witness_LaunchPremises :
    LaunchPremises (.next launched) launched 0x1000#32 [0x01000000#32] observed where
  begins := ⟨rfl, rfl⟩
  noFaultRecorded := rfl
  alignedEntry := ⟨by decide, by decide, by decide⟩
  memDescribesLaunch := witness_MemDescribesLaunch
  noOtherWriter s t h a _ := by
    obtain ⟨rfl, rfl⟩ := follows_observed h
    rfl
  noInterrupts s t h := by
    obtain ⟨rfl, rfl⟩ := follows_observed h
    exact ⟨rfl, fun _ _ => ⟨fun _ _ => rfl, fun _ => rfl⟩⟩
  textImmutable s t h a _ := by
    obtain ⟨rfl, rfl⟩ := follows_observed h
    rfl
  decisionsHold := witness_DecisionsHold

/-- A list with a second word, which would stand at `END_ADDR`, where the zeros of `launched` are another word: the premise
does not see it (log entry 44). -/
theorem test_premise_silent_at_end : MemDescribesLaunch [0x01000000#32, 0x02083C80#32] launched := by
  refine ⟨fun k w h hne => ?_, witness_MemDescribesLaunch.2⟩
  match k with
  | 0 =>
    cases h
    decide
  | 1 => exact absurd (by decide) hne
  | k + 2 => cases h

theorem witness_LaunchedRunExecutesTheProgram :
    observed[0]? = some launched ∧ [0x01000000#32][0]? = some 0x01000000#32 ∧ ¬ launched.final :=
  ⟨rfl, rfl, show ¬ launched.pc = launched.launch.endAddr by decide⟩

end Sys2Proof.Tests
end

section
/-!
PROOFS. The family 10_state.md: what the condition numbers test (R32) and the advance of `pc` (R25). The second goes
through a postcondition of results, `Answers`, with one rule for each shared operation; `exec` then meets it row by row,
and `step` after it.
-/

namespace Sys2Proof.Machine

/-! ### The condition codes -/

/-- Settles O17: row by row, the Boolean formula of the model read as a proposition about the flags. -/
theorem conditionFormulas : Obligations.ConditionFormulas := by
  intro f
  have clear_iff (b : Bool) : (!b) = true ↔ b = false := .of_eq (Bool.not_eq_true' b)
  have alike_iff : (f.n == f.v) = true ↔ f.n = f.v := beq_iff_eq
  have differ_iff : (f.n != f.v) = true ↔ f.n ≠ f.v := bne_iff_ne
  exact
    ⟨iff_of_false Bool.false_ne_true id, Iff.rfl,
      Iff.rfl, Iff.rfl,
      Bool.or_eq_true_iff, differ_iff,
      Bool.or_eq_true_iff.trans (or_congr_right differ_iff), Iff.rfl,
      clear_iff f.n, Bool.and_eq_true_iff.trans (and_congr (clear_iff f.z) alike_iff),
      alike_iff, Bool.and_eq_true_iff.trans (and_congr (clear_iff f.c) (clear_iff f.z)),
      clear_iff f.v, clear_iff f.z,
      clear_iff f.c, iff_of_true rfl trivial⟩

/-! ### What an operation at a `pc` answers -/

/-- A result of an operation run by the instruction at `pc`: a value with the postcondition, a fault that records `pc`
(60_exceptions.md R200), or a refusal. -/
def Answers {α : Type} (pc : Word) (post : α → Prop) : Result α → Prop
  | .next a => post a
  | .fault e => faultPc e = pc
  | .refused _ => True

section Rules
variable {α β : Type} {pc : Word} {post : α → Prop}

theorem Answers.next {r : Result α} (h : Answers pc post r) {a : α} (hr : r = .next a) : post a := by
  subst hr
  exact h

theorem Answers.fault {r : Result α} (h : Answers pc post r) {e : Fault} (hr : r = .fault e) : faultPc e = pc := by
  subst hr
  exact h

theorem answers_refuse (q : Refusal) : Answers pc post (refuse q) := trivial

/-- Sequencing: what follows needs to hold only of the values the first operation can give. -/
theorem Answers.andThen {mid : β → Prop} {r : Result β} {f : β → Result α} (hr : Answers pc mid r)
    (hf : ∀ b, mid b → Answers pc post (f b)) : Answers pc post (andThen r f) := by
  cases r with
  | next b => exact hf b hr
  | fault e => exact hr
  | refused q => trivial

theorem answers_withSize {w : BitVec 2} {enc : Word} {f : Size → Result α} (hf : ∀ sz, Answers pc post (f sz)) :
    Answers pc post (withSize w enc f) := by
  unfold withSize
  split
  · exact hf _
  · exact answers_refuse _

theorem answers_withTwoRegs {d s : RegIx} {enc : Word} {r : Result α} (hr : Answers pc post r) :
    Answers pc post (withTwoRegs d s enc r) := by
  unfold withTwoRegs
  split
  · exact answers_refuse _
  · exact hr

end Rules

section Operations
variable (s : State)

theorem memRead_answers (a : Word) (sz : Size) : Answers s.pc (fun _ => True) (memRead a sz s) := by
  unfold memRead
  split
  · rfl
  · split
    · rfl
    · trivial

/-- A store answers a state that differs in memory only. -/
theorem memWrite_answers (a : Word) (sz : Size) (v : Word) :
    Answers s.pc (fun t => t = { s with mem := writeBytes s.mem a (leBytes sz.bytes v) }) (memWrite a sz v s) := by
  unfold memWrite
  split
  · rfl
  · split
    · rfl
    · split
      · trivial
      · rfl

theorem fetch_answers : Answers s.pc (fun _ => True) (fetch s) := by
  unfold fetch
  split
  · rfl
  · split <;> trivial

theorem decodeFetched_answers (pc w : Word) : Answers pc (fun _ => True) (decodeFetched w) := by
  unfold decodeFetched
  split <;> trivial

end Operations

/-! ### The instructions, and the step -/

/-- `pc` is that of the next word (10_state.md R25). -/
def AtNextWord (s t : State) : Prop := t.pc = s.pc + 4#32

section Instructions
variable (s : State)

theorem execLd_answers (rd rs : RegIx) (w : BitVec 2) : Answers s.pc (AtNextWord s) (execLd rd rs w s) :=
  answers_withSize fun sz => (memRead_answers s (readReg rs s) sz).andThen fun _ _ => rfl

theorem execSt_answers (rd rs : RegIx) (w : BitVec 2) : Answers s.pc (AtNextWord s) (execSt rd rs w s) :=
  answers_withSize fun sz => (memWrite_answers s (readReg rd s) sz (readReg rs s)).andThen fun t ht => by
    subst ht
    rfl

theorem execPush_answers (rd rs : RegIx) (w : BitVec 2) : Answers s.pc (AtNextWord s) (execPush rd rs w s) :=
  answers_withSize fun sz => answers_withTwoRegs <|
    (memWrite_answers s (pushAddr (readReg rd s) sz) sz (readReg rs s)).andThen fun t ht => by
      subst ht
      rfl

theorem execPop_answers (rd rs : RegIx) (w : BitVec 2) : Answers s.pc (AtNextWord s) (execPop rd rs w s) :=
  answers_withSize fun sz => answers_withTwoRegs <|
    (memRead_answers s (readReg rs s) sz).andThen fun _ _ => rfl

/-- Whether or not the condition holds, the move ends in `advance`. -/
theorem condMove_answers (cc : Cond) (rd rs : RegIx) : Answers s.pc (AtNextWord s) (condMove cc rd rs s) := by
  show (advance (if condHolds cc s.flags then _ else _)).pc = _
  split <;> rfl

theorem movMapped_answers (cc : Cond) (m : RegMap) (rd rs : RegIx) (enc : Word) :
    Answers s.pc (AtNextWord s) (movMapped cc m rd rs enc s) := by
  unfold movMapped
  split
  · exact condMove_answers s cc rd rs
  · exact answers_refuse _

/-- Every instruction moves `pc` to the next word if it completes, and a fault of it records its `pc`. -/
theorem exec_answers (i : Instr) : Answers s.pc (AtNextWord s) (exec i s) := by
  cases i with
  | und | pause | nop | addi => rfl
  | movcReg cc rd rs | movcRegR1 cc rd rs => exact condMove_answers s cc rd rs
  | movcRead cc rd m rs | movcWrite cc m rd rs => exact movMapped_answers s cc m rd rs _
  | movReg rd rs => exact condMove_answers s .al rd rs
  | movRead rd m rs | movWrite m rd rs => exact movMapped_answers s .al m rd rs _
  | movlReg | movlRead | movlWrite => exact answers_refuse _
  | ld rd rs w => exact execLd_answers s rd rs w
  | ldWord rd rs => exact execLd_answers s rd rs wordField
  | st rd rs w => exact execSt_answers s rd rs w
  | stWord rd rs => exact execSt_answers s rd rs wordField
  | push rd rs w => exact execPush_answers s rd rs w
  | pushWord rd rs => exact execPush_answers s rd rs wordField
  | pushShort rs => exact execPush_answers s stackReg rs wordField
  | pop rd rs w => exact execPop_answers s rd rs w
  | popWord rd rs => exact execPop_answers s rd rs wordField
  | popShort rd => exact execPop_answers s rd stackReg wordField

theorem step_answers : Answers s.pc (AtNextWord s) (step s) := by
  unfold step
  split
  · exact answers_refuse _
  · exact (fetch_answers s).andThen fun w _ => (decodeFetched_answers s.pc w).andThen fun i _ => exec_answers s i

end Instructions

theorem not_completes_raise (e : Fault) : ¬ completes (raise e) := fun ⟨_, h⟩ => raise_ne_next h

theorem not_completes_refuse (q : Refusal) : ¬ completes (refuse q) := fun ⟨_, h⟩ => refuse_ne_next h

/-- Settles O44: `step` and `exec` meet one postcondition, which gives the `pc` of a next state and that of a fault; `UND`
raises and `MOVL<c>` refuses. -/
theorem everyStepAdvancesByFour : Obligations.EveryStepAdvancesByFour :=
  ⟨fun s _ h => (step_answers s).fault h, fun s _ h => (step_answers s).next h,
    fun i s _ h => (exec_answers s i).next h,
    fun _ _ _ _ _ _ =>
      ⟨not_completes_raise _, not_completes_refuse _, not_completes_refuse _, not_completes_refuse _⟩⟩

end Sys2Proof.Machine
end

section
/-!
PROOFS. The family 20_memory.md: how `MemRead` and `MemWrite` answer, test by test in the order of R57 and R58, the
misaligned access of `LD`, `ST`, `PUSH`, `POP` (R55), and the byte order of data and of fetch (R54). Each operation is
taken through its tests once, with consecutive addresses for its bytes; the statements are put together from that.
-/

namespace Sys2Proof.Machine

section Access
variable {a v : Word} {sz : Size} {s : State}

/-! ### The tests of an access -/

theorem aligned_eq_false_iff : aligned a sz = false ↔ a.toNat % sz.bytes ≠ 0 := by simp [aligned]

/-- A 1-byte access is aligned at every address (20_memory.md R55). -/
theorem mod_byte_eq_zero (a : Word) : a.toNat % Size.byte.bytes = 0 := Nat.mod_one _

theorem mod_eq_zero_of_readable (h : readable a sz s = true) : a.toNat % sz.bytes = 0 :=
  aligned_iff.1 (Bool.and_eq_true_iff.1 h).1

theorem mod_eq_zero_of_writable (h : writable a sz s = true) : a.toNat % sz.bytes = 0 :=
  mod_eq_zero_of_readable (Bool.and_eq_true_iff.1 h).1

/-- A test of the bytes of an aligned access, at their consecutive addresses. -/
theorem anyByte_eq_true_of_aligned (h : a.toNat % sz.bytes = 0) {l : Launch} {k : Kind} :
    anyByte l a sz.bytes k = true ↔ ∃ i < sz.bytes, l.kind (a.toNat + i) = k := by
  rw [anyByte_eq_true]
  refine exists_congr fun i => and_congr_right fun hi => ?_
  rw [byteAddr_of_aligned h hi]

theorem anyByte_eq_false_of_aligned (h : a.toNat % sz.bytes = 0) {l : Launch} {k : Kind} :
    anyByte l a sz.bytes k = false ↔ ∀ i < sz.bytes, l.kind (a.toNat + i) ≠ k := by
  rw [← Bool.not_eq_true, anyByte_eq_true_of_aligned h]
  simp

/-- The bytes of an aligned access stand at consecutive addresses (20_memory.md R57). -/
theorem bytesAt_of_aligned (m : Mem) (h : a.toNat % sz.bytes = 0) :
    bytesAt m a sz.bytes = (List.range sz.bytes).map fun k => Mem.read m (a.toNat + k) :=
  List.map_congr_left fun k hk => by rw [byteAddr_of_aligned h (List.mem_range.1 hk)]

/-- An aligned access ends at or below the top of the address space, since its size divides `2^32` (20_memory.md
R57). -/
theorem access_end_le (h : a.toNat % sz.bytes = 0) : a.toNat + sz.bytes ≤ 2 ^ 32 := by
  have := a.isLt
  rcases sz.bytes_cases with e | e | e <;> rw [e] at h ⊢ <;> omega

/-! ### `MemRead` -/

/-- The misaligned fault of a read: exactly where the address is no multiple of the size, with that address. -/
theorem memRead_eq_misaligned {b p : Word} :
    memRead a sz s = .fault (.misalignedAccess b p) ↔ a.toNat % sz.bytes ≠ 0 ∧ b = a ∧ p = s.pc := by
  rw [← aligned_eq_false_iff]
  unfold memRead
  cases aligned a sz
  · simp [raise, eq_comm]
  · cases anyByte s.launch a sz.bytes .unmapped <;> simp [raise]

theorem memRead_misaligned (h : a.toNat % sz.bytes ≠ 0) : memRead a sz s = .fault (.misalignedAccess a s.pc) :=
  memRead_eq_misaligned.2 ⟨h, rfl, rfl⟩

theorem memRead_unmapped (h : a.toNat % sz.bytes = 0) (hk : ∃ k < sz.bytes, s.launch.kind (a.toNat + k) = .unmapped) :
    memRead a sz s = .fault (.accessFault a s.pc) := by
  simp [memRead, aligned_iff.2 h, (anyByte_eq_true_of_aligned h).2 hk, raise]

theorem memRead_mapped (h : a.toNat % sz.bytes = 0) (hk : ∀ k < sz.bytes, s.launch.kind (a.toNat + k) ≠ .unmapped) :
    memRead a sz s = .next ((List.range sz.bytes).map fun k => Mem.read s.mem (a.toNat + k)) :=
  memRead_eq_next.2 ⟨readable_of h hk, (bytesAt_of_aligned s.mem h).symm⟩

/-! ### `MemWrite` -/

/-- The misaligned fault of a write: exactly where the address is no multiple of the size, with that address. -/
theorem memWrite_eq_misaligned {b p : Word} :
    memWrite a sz v s = .fault (.misalignedAccess b p) ↔ a.toNat % sz.bytes ≠ 0 ∧ b = a ∧ p = s.pc := by
  rw [← aligned_eq_false_iff]
  unfold memWrite
  cases aligned a sz
  · simp [raise, eq_comm]
  · cases anyByte s.launch a sz.bytes .unmapped
    · cases anyByte s.launch a sz.bytes .text <;> simp [refuse]
    · simp [raise]

theorem memWrite_misaligned (h : a.toNat % sz.bytes ≠ 0) : memWrite a sz v s = .fault (.misalignedAccess a s.pc) :=
  memWrite_eq_misaligned.2 ⟨h, rfl, rfl⟩

theorem memWrite_unmapped (h : a.toNat % sz.bytes = 0)
    (hk : ∃ k < sz.bytes, s.launch.kind (a.toNat + k) = .unmapped) :
    memWrite a sz v s = .fault (.accessFault a s.pc) := by
  simp [memWrite, aligned_iff.2 h, (anyByte_eq_true_of_aligned h).2 hk, raise]

theorem memWrite_text (h : a.toNat % sz.bytes = 0) (hk : ∀ k < sz.bytes, s.launch.kind (a.toNat + k) ≠ .unmapped)
    (ht : ∃ k < sz.bytes, s.launch.kind (a.toNat + k) = .text) : memWrite a sz v s = .refused (.storeToText a) := by
  simp [memWrite, aligned_iff.2 h, (anyByte_eq_false_of_aligned h).2 hk, (anyByte_eq_true_of_aligned h).2 ht, refuse]

theorem memWrite_data (h : a.toNat % sz.bytes = 0) (hk : ∀ k < sz.bytes, s.launch.kind (a.toNat + k) = .data) :
    memWrite a sz v s = .next { s with mem := writeBytes s.mem a (leBytes sz.bytes v) } :=
  memWrite_eq_next.2 ⟨writable_of h hk, rfl⟩

/-! ### A store, then a read -/

/-- Each byte of a store that answers holds its byte of the value (20_memory.md R54, R58). -/
theorem read_memWrite_inside {t : State} (h : memWrite a sz v s = .next t) {k : Nat} (hk : k < sz.bytes) :
    Mem.read t.mem (a.toNat + k) = v.extractLsb' (8 * k) 8 := by
  obtain ⟨hw, rfl⟩ := memWrite_eq_next.1 h
  exact read_store_inside s.mem v (mod_eq_zero_of_writable hw) hk

/-- A read aligned inside the bytes just stored, of the size of the store or narrower, gives those bytes of the value
(20_memory.md R54). -/
theorem memRead_inside_store {t : State} (h : memWrite a sz v s = .next t) {sz' : Size} {k : Nat}
    (hdvd : k % sz'.bytes = 0) (hk : k + sz'.bytes ≤ sz.bytes) :
    memRead (a + BitVec.ofNat 32 k) sz' t =
      .next ((List.range sz'.bytes).map fun j => v.extractLsb' (8 * (k + j)) 8) := by
  obtain ⟨hw, rfl⟩ := memWrite_eq_next.1 h
  have ha := mod_eq_zero_of_writable hw
  have hpos : 0 < sz'.bytes := by cases sz' <;> decide
  have hmul : sz'.bytes ∣ sz.bytes := by
    cases sz' <;> cases sz <;> simp only [Size.bytes] at hk ⊢ <;> omega
  have hadr : (a + BitVec.ofNat 32 k).toNat = a.toNat + k := byteAddr_of_aligned ha (by omega)
  have ha' : (a + BitVec.ofNat 32 k).toNat % sz'.bytes = 0 := by
    rw [hadr]
    exact Nat.mod_eq_zero_of_dvd (Nat.dvd_add (hmul.trans (Nat.dvd_of_mod_eq_zero ha)) (Nat.dvd_of_mod_eq_zero hdvd))
  rw [memRead_mapped ha' fun j hj => ?_]
  · congr 1
    refine List.map_congr_left fun j hj => ?_
    rw [hadr, Nat.add_assoc]
    exact read_memWrite_inside h (by have := List.mem_range.1 hj; omega)
  · rw [hadr, Nat.add_assoc, kind_of_writable hw (by omega)]
    decide

end Access

/-! ### The instructions that access memory, at a size -/

section AtSize
variable {d s : RegIx} {w : BitVec 2} {sz : Size}

theorem withSize_of_ofField {α : Type} {enc : Word} {f : Size → Result α} (h : Size.ofField w = some sz) :
    withSize w enc f = f sz := by
  simp [withSize, h]

theorem withTwoRegs_of_ne {α : Type} {enc : Word} {r : Result α} (h : d ≠ s) : withTwoRegs d s enc r = r := if_neg h

variable (h : Size.ofField w = some sz) (st : State)
include h

theorem exec_ld_of_ofField :
    exec (.ld d s w) st =
      andThen (memRead (readReg s st) sz st) fun bs => .next (advance (writeReg d (loadValue bs) st)) :=
  withSize_of_ofField h

theorem exec_st_of_ofField :
    exec (.st d s w) st = andThen (memWrite (readReg d st) sz (readReg s st) st) fun st' => .next (advance st') :=
  withSize_of_ofField h

theorem exec_push_of_ofField (hne : d ≠ s) :
    exec (.push d s w) st =
      andThen (memWrite (pushAddr (readReg d st) sz) sz (readReg s st) st) fun st' =>
        .next (advance (writeReg d (pushAddr (readReg d st) sz) st')) :=
  (withSize_of_ofField h).trans (withTwoRegs_of_ne hne)

theorem exec_pop_of_ofField (hne : d ≠ s) :
    exec (.pop d s w) st =
      andThen (memRead (readReg s st) sz st) fun bs =>
        .next (advance (writeReg s (popNext (readReg s st) sz) (writeReg d (loadValue bs) st))) :=
  (withSize_of_ofField h).trans (withTwoRegs_of_ne hne)

end AtSize

/-! ### The statements -/

/-- Settles O31: at the size `w` names, each instruction begins with its access, whose first test is the alignment. -/
theorem misalignedAccessFaults : Obligations.MisalignedAccessFaults := by
  refine ⟨fun a v b p s => ⟨fun h => (memRead_eq_misaligned.1 h).1 (mod_byte_eq_zero a),
    fun h => (memWrite_eq_misaligned.1 h).1 (mod_byte_eq_zero a)⟩, fun d s w st hw => ?_⟩
  obtain ⟨sz, hsz, hbytes⟩ := Size.ofField_some w hw
  rw [← hbytes]
  refine ⟨fun hmis => ⟨?_, fun hne => ?_⟩, fun hmis => ?_, fun hmis hne => ?_⟩
  · rw [exec_ld_of_ofField hsz, memRead_misaligned hmis, andThen_fault]
  · rw [exec_pop_of_ofField hsz st hne, memRead_misaligned hmis, andThen_fault]
  · rw [exec_st_of_ofField hsz, memWrite_misaligned hmis, andThen_fault]
  · rw [exec_push_of_ofField hsz st hne, memWrite_misaligned (by rwa [pushAddr_eq]), andThen_fault, pushAddr_eq,
      Size.toWord]

/-- Settles O32: the three answers of `MemRead`, and where an aligned access ends. -/
theorem memReadOrder : Obligations.MemReadOrder := fun _ _ _ =>
  ⟨memRead_misaligned, memRead_unmapped, fun h hk => ⟨memRead_mapped h hk, access_end_le h⟩⟩

/-- Settles O33: the four answers of `MemWrite`; the store that is done is read byte by byte, inside and outside. -/
theorem memWriteOrder : Obligations.MemWriteOrder := fun _ v _ s =>
  ⟨memWrite_misaligned, memWrite_unmapped, memWrite_text, fun h hk =>
    ⟨_, memWrite_data h hk, fun _ => read_store_inside s.mem v h, fun _ => read_store_outside s.mem v h,
      rfl, rfl, rfl, rfl, rfl⟩⟩

/-- Settles O36: stores and loads byte by byte; a narrow read is one inside the bytes stored; the fetched word is the
value of its four bytes as that of a load is. -/
theorem wordSeenThroughNarrowReads : Obligations.WordSeenThroughNarrowReads := by
  refine ⟨fun a v sz s t h k => read_memWrite_inside h, fun a sz s bs h k hk => ?load,
    fun a v s t h => ⟨fun i hi => ?byte, fun j hj => ?half⟩, fun s w h i hi => ?fetch⟩
  case load =>
    obtain ⟨hr, rfl⟩ := memRead_eq_next.1 h
    exact loadValue_byte s.mem (mod_eq_zero_of_readable hr) hk
  case byte => exact memRead_inside_store h (sz' := .byte) (Nat.mod_one i) hi
  case half =>
    have hread := memRead_inside_store h (sz' := .half) (k := 2 * j) (Nat.mul_mod_right 2 j)
      (show 2 * j + 2 ≤ 4 by omega)
    rw [hread]
    simp only [Size.bytes, List.range_succ, List.range_zero, List.nil_append, List.cons_append, List.map_cons,
      List.map_nil, show 8 * (2 * j + 0) = 16 * j by omega, show 8 * (2 * j + 1) = 16 * j + 8 by omega]
  case fetch =>
    obtain ⟨-, -, rfl⟩ := fetch_eq_next.1 h
    rw [leWord_byte _ hi]
    simp [bytesAt, hi]

end Sys2Proof.Machine
end

section
/-!
PROOFS. The family 30_encoding.md: what the decoder answers for each opcode and which words it refuses (R120, R122, R123),
the words of the encoder's five formats read back (R114 to R118), the names of the condition codes (R99), and the fields of
`BITW` and `BYTESZ` operands (R96, R97).
-/

namespace Sys2Proof

/-! ### The decoder, opcode by opcode -/

/-- A word of a format with reserved bits: refused if one of them is 1, else the instruction of its fields
(30_encoding.md R122). -/
def decodeUnreserved (w : Word) (lo n : Nat) (i : Instr) : Except DecodeError Instr :=
  if w.extractLsb' lo n ≠ 0#n then .error (.reservedBits w) else .ok i

section Unreserved
variable {w : Word} {lo n : Nat} {i : Instr}

theorem decodeUnreserved_of_zero (h : w.extractLsb' lo n = 0#n) : decodeUnreserved w lo n i = .ok i :=
  if_neg (not_not_intro h)

theorem decodeUnreserved_eq_reservedBits {v : Word} :
    decodeUnreserved w lo n i = .error (.reservedBits v) ↔ v = w ∧ w.extractLsb' lo n ≠ 0#n := by
  unfold decodeUnreserved
  split
  next h => simp [h, eq_comm]
  next h => simp [not_not.1 h]

theorem decodeUnreserved_ne_opcodeNotShown {op : BitVec 8} :
    decodeUnreserved w lo n i ≠ .error (.opcodeNotShown op) := by
  unfold decodeUnreserved
  split <;> simp

end Unreserved

/-- No surviving chart has the opcode (30_encoding.md R123). -/
def NotShown (op : BitVec 8) : Prop := (0x05 ≤ op.toNat ∧ op.toNat ≤ 0x07) ∨ 0x09 ≤ op.toNat

/-- The opcodes the decoder tells apart. -/
theorem opcode_cases (op : BitVec 8) :
    op = 0x00#8 ∨ op = 0x01#8 ∨ op = 0x02#8 ∨ op = 0x03#8 ∨ op = 0x04#8 ∨ op = 0x08#8 ∨ NotShown op := by
  unfold NotShown
  simp only [← BitVec.toNat_inj, BitVec.toNat_ofNat]
  omega

section Opcodes
variable {w : Word}

theorem decodeWord_op00 (h : opcodeOf w = 0x00#8) : decodeWord w = .ok (.und (w.extractLsb' 0 24)) := by
  simp [decodeWord, h]

theorem decodeWord_op01 (h : opcodeOf w = 0x01#8) :
    decodeWord w = decodeUnreserved w 6 18 (.pause (w.extractLsb' 0 6)) := by
  simp [decodeWord, h, decodeUnreserved]

theorem decodeWord_op02 (h : opcodeOf w = 0x02#8) : decodeWord w = decodeUnreserved w 0 5 (decodeRRC w) := by
  simp [decodeWord, h, decodeUnreserved]

theorem decodeWord_op03 (h : opcodeOf w = 0x03#8) :
    decodeWord w = decodeUnreserved w 0 11
      (if fieldP w = 1#1 then .pop (fieldD w) (fieldS w) (fieldW w) else .ld (fieldD w) (fieldS w) (fieldW w)) := by
  simp [decodeWord, h, decodeUnreserved]

theorem decodeWord_op04 (h : opcodeOf w = 0x04#8) :
    decodeWord w = decodeUnreserved w 0 11
      (if fieldP w = 1#1 then .push (fieldD w) (fieldS w) (fieldW w) else .st (fieldD w) (fieldS w) (fieldW w)) := by
  simp [decodeWord, h, decodeUnreserved]

theorem decodeWord_op08 (h : opcodeOf w = 0x08#8) :
    decodeWord w = decodeUnreserved w 16 3 (.addi (fieldD w) (w.extractLsb' 0 16)) := by
  simp [decodeWord, h, decodeUnreserved]

theorem decodeWord_notShown (h : NotShown (opcodeOf w)) : decodeWord w = .error (.opcodeNotShown (opcodeOf w)) := by
  unfold NotShown at h
  unfold decodeWord
  split
  case h_7 => rfl
  all_goals omega

end Opcodes

/-! ### The words the decoder refuses -/

/-- Each opcode with reserved bits brings its own alternative, every other opcode none. -/
theorem decodeWord_eq_reservedBits {w v : Word} :
    decodeWord w = .error (.reservedBits v) ↔
      v = w ∧
        ((opcodeOf w = 0x01#8 ∧ w.extractLsb' 6 18 ≠ 0#18) ∨
         (opcodeOf w = 0x02#8 ∧ w.extractLsb' 0 5 ≠ 0#5) ∨
         (opcodeOf w = 0x03#8 ∧ w.extractLsb' 0 11 ≠ 0#11) ∨
         (opcodeOf w = 0x04#8 ∧ w.extractLsb' 0 11 ≠ 0#11) ∨
         (opcodeOf w = 0x08#8 ∧ w.extractLsb' 16 3 ≠ 0#3)) := by
  rcases opcode_cases (opcodeOf w) with h | h | h | h | h | h | h
  · simp [decodeWord_op00 h, h]
  · simp [decodeWord_op01 h, decodeUnreserved_eq_reservedBits, h]
  · simp [decodeWord_op02 h, decodeUnreserved_eq_reservedBits, h]
  · simp [decodeWord_op03 h, decodeUnreserved_eq_reservedBits, h]
  · simp [decodeWord_op04 h, decodeUnreserved_eq_reservedBits, h]
  · simp [decodeWord_op08 h, decodeUnreserved_eq_reservedBits, h]
  · rw [decodeWord_notShown h]
    unfold NotShown at h
    simp only [← BitVec.toNat_inj, BitVec.toNat_ofNat]
    refine iff_of_false (by simp) ?_
    omega

theorem decodeWord_eq_opcodeNotShown {w : Word} {op : BitVec 8} :
    decodeWord w = .error (.opcodeNotShown op) ↔ op = opcodeOf w ∧ NotShown op := by
  constructor
  · intro hw
    rcases opcode_cases (opcodeOf w) with h | h | h | h | h | h | h
    · simp [decodeWord_op00 h] at hw
    · exact absurd (decodeWord_op01 h ▸ hw) decodeUnreserved_ne_opcodeNotShown
    · exact absurd (decodeWord_op02 h ▸ hw) decodeUnreserved_ne_opcodeNotShown
    · exact absurd (decodeWord_op03 h ▸ hw) decodeUnreserved_ne_opcodeNotShown
    · exact absurd (decodeWord_op04 h ▸ hw) decodeUnreserved_ne_opcodeNotShown
    · exact absurd (decodeWord_op08 h ▸ hw) decodeUnreserved_ne_opcodeNotShown
    · rw [decodeWord_notShown h] at hw
      cases hw
      exact ⟨rfl, h⟩
  · rintro ⟨rfl, h⟩
    exact decodeWord_notShown h

/-! ### The words of the encoder's formats -/

theorem decodeWord_encodeP24 (p : BitVec 24) : decodeWord (encodeP24 p) = .ok (.und p) := by
  have hop : opcodeOf (encodeP24 p) = 0x00#8 := by
    simp (disch := omega) [opcodeOf, encodeP24, extract_place_same, extract_place_below]
  have hp : (encodeP24 p).extractLsb' 0 24 = p := by
    simp (disch := omega) [encodeP24, extract_place_same, extract_place_above]
  rw [decodeWord_op00 hop, hp]

theorem decodeWord_encodeK6 (k : BitVec 6) : decodeWord (encodeK6 k) = .ok (.pause k) := by
  have hop : opcodeOf (encodeK6 k) = 0x01#8 := by
    simp (disch := omega) [opcodeOf, encodeK6, extract_place_same, extract_place_below]
  have hres : (encodeK6 k).extractLsb' 6 18 = 0#18 := by
    simp (disch := omega) [encodeK6, extract_place_above, extract_place_below]
  have hk : (encodeK6 k).extractLsb' 0 6 = k := by
    simp (disch := omega) [encodeK6, extract_place_same, extract_place_above]
  rw [decodeWord_op01 hop, decodeUnreserved_of_zero hres, hk]

theorem decodeWord_encodeRI16 (d : RegIx) (imm : BitVec 16) : decodeWord (encodeRI16 d imm) = .ok (.addi d imm) := by
  have hop : opcodeOf (encodeRI16 d imm) = 0x08#8 := by
    simp (disch := omega) [opcodeOf, encodeRI16, extract_place_same, extract_place_below]
  have hres : (encodeRI16 d imm).extractLsb' 16 3 = 0#3 := by
    simp (disch := omega) [encodeRI16, extract_place_above, extract_place_below]
  have hd : fieldD (encodeRI16 d imm) = d := by
    simp (disch := omega) [fieldD, encodeRI16, extract_place_same, extract_place_above, extract_place_below]
  have himm : (encodeRI16 d imm).extractLsb' 0 16 = imm := by
    simp (disch := omega) [encodeRI16, extract_place_same, extract_place_above]
  rw [decodeWord_op08 hop, decodeUnreserved_of_zero hres, hd, himm]

theorem decodeWord_encodeRRC (d s : RegIx) (cc : Cond) (m : RegMap) (r l : BitVec 1) :
    decodeWord (encodeRRC d s cc m r l) = .ok (decodeRRC (encodeRRC d s cc m r l)) := by
  have hop : opcodeOf (encodeRRC d s cc m r l) = 0x02#8 := by
    simp (disch := omega) [opcodeOf, encodeRRC, extract_place_same, extract_place_below]
  have hres : (encodeRRC d s cc m r l).extractLsb' 0 5 = 0#5 := by
    simp (disch := omega) [encodeRRC, extract_place_above]
  rw [decodeWord_op02 hop, decodeUnreserved_of_zero hres]

section RRW
variable (op : BitVec 8) (d s : RegIx) (w : BitVec 2) (p : BitVec 1)

theorem opcodeOf_encodeRRW : opcodeOf (encodeRRW op d s w p) = op := by
  simp (disch := omega) [opcodeOf, encodeRRW, extract_place_same, extract_place_below]

theorem reserved_encodeRRW : (encodeRRW op d s w p).extractLsb' 0 11 = 0#11 := by
  simp (disch := omega) [encodeRRW, extract_place_above]

theorem fieldD_encodeRRW : fieldD (encodeRRW op d s w p) = d := by
  simp (disch := omega) [fieldD, encodeRRW, extract_place_same, extract_place_above, extract_place_below]

theorem fieldS_encodeRRW : fieldS (encodeRRW op d s w p) = s := by
  simp (disch := omega) [fieldS, encodeRRW, extract_place_same, extract_place_above, extract_place_below]

theorem fieldW_encodeRRW : fieldW (encodeRRW op d s w p) = w := by
  simp (disch := omega) [fieldW, encodeRRW, extract_place_same, extract_place_above, extract_place_below]

theorem fieldP_encodeRRW : fieldP (encodeRRW op d s w p) = p := by
  simp (disch := omega) [fieldP, encodeRRW, extract_place_same, extract_place_above]

theorem decodeWord_encodeRRW_load :
    decodeWord (encodeRRW 0x03#8 d s w p) = .ok (if p = 1#1 then .pop d s w else .ld d s w) := by
  rw [decodeWord_op03 (opcodeOf_encodeRRW ..), decodeUnreserved_of_zero (reserved_encodeRRW ..), fieldP_encodeRRW,
    fieldD_encodeRRW, fieldS_encodeRRW, fieldW_encodeRRW]

theorem decodeWord_encodeRRW_store :
    decodeWord (encodeRRW 0x04#8 d s w p) = .ok (if p = 1#1 then .push d s w else .st d s w) := by
  rw [decodeWord_op04 (opcodeOf_encodeRRW ..), decodeUnreserved_of_zero (reserved_encodeRRW ..), fieldP_encodeRRW,
    fieldD_encodeRRW, fieldS_encodeRRW, fieldW_encodeRRW]

end RRW

/-- The decoder accepts every word of the encoder, whether or not the instruction is well formed. -/
theorem encode_accepted (i : Instr) : ∃ j, decodeWord (encode i) = .ok j := by
  cases i with
  | und p => exact ⟨_, decodeWord_encodeP24 p⟩
  | pause | nop => exact ⟨_, decodeWord_encodeK6 _⟩
  | movcReg | movcRegR1 | movcRead | movcWrite | movReg | movRead | movWrite | movlReg | movlRead | movlWrite =>
    exact ⟨_, decodeWord_encodeRRC ..⟩
  | ld | ldWord | pop | popWord | popShort => exact ⟨_, decodeWord_encodeRRW_load ..⟩
  | st | stWord | push | pushWord | pushShort => exact ⟨_, decodeWord_encodeRRW_store ..⟩
  | addi d imm => exact ⟨_, decodeWord_encodeRI16 d imm⟩

/-- Settles O3: the decoder's refusals opcode by opcode, and its acceptance of every word of the encoder. -/
theorem reservedBitsRefused : Obligations.ReservedBitsRefused := by
  refine ⟨fun _ _ => decodeWord_eq_reservedBits, fun i v h => ?_⟩
  obtain ⟨j, hj⟩ := encode_accepted i
  cases hj.symm.trans h

/-- Settles O4: of the opcodes the decoder tells apart, only those not shown are refused for being so. -/
theorem unshownOpcodesRefused : Obligations.UnshownOpcodesRefused := fun _ _ => decodeWord_eq_opcodeNotShown

end Sys2Proof

namespace Sys2Proof.Asm

/-! ### The names of the condition codes -/

theorem parseCond_printCond (cc : Cond) : parseCond (printCond cc) = some cc := by
  cases cc <;> rfl

/-- What is read is a row of the table. -/
theorem mem_condTable_of_parseCond {text : List Char} {cc : Cond} (h : parseCond text = some cc) :
    ∃ canonical, (text, cc, canonical) ∈ condTable := by
  obtain ⟨⟨name, cc', canonical⟩, hfind, rfl⟩ := Option.map_eq_some_iff.1 h
  obtain rfl : name = text := eq_of_beq (List.find?_some hfind :)
  exact ⟨canonical, List.mem_of_find?_eq_some hfind⟩

/-- The second row with the text `NV` is one of condition 12, so that condition 0 has one row only (30_encoding.md R99). -/
theorem never_named_only_nv : ∀ row ∈ condTable, row.2.1 = .nv → row.1 = "NV".toList := by decide

/-- Settles O8: a name read as 0 is in a row of the table for 0, and only `NV` is; the numbers are read off the table. -/
theorem conditionNamesReadBack : Obligations.ConditionNamesReadBack := by
  refine ⟨parseCond_printCond, rfl, fun text h => ?_, by decide⟩
  obtain ⟨_, hrow⟩ := mem_condTable_of_parseCond h
  exact never_named_only_nv _ hrow rfl

/-! ### The fields of widths and sizes -/

theorem admits_bitw {n : Int} : OperandKind.bitw.admits n = true ↔ 1 ≤ n ∧ n ≤ 32 := by
  simp only [OperandKind.admits, OperandKind.range, Bool.and_eq_true, decide_eq_true_eq]
  omega

theorem bitwField_of_width {n : Nat} (h : 1 ≤ n ∧ n ≤ 32) : bitwField n = some (BitVec.ofNat 5 n) := by
  rw [bitwField, if_pos (admits_bitw.2 (by omega)), BitVec.ofInt_natCast]

theorem bitwField_eq_none {n : Int} (h : ¬ (1 ≤ n ∧ n ≤ 32)) : bitwField n = none :=
  if_neg (mt admits_bitw.1 h)

/-- The field `n mod 32` is read as `n`, the one of 32 included (30_encoding.md R96). -/
theorem bitwWidth_ofNat {n : Nat} (h : 1 ≤ n ∧ n ≤ 32) : bitwWidth (BitVec.ofNat 5 n) = n := by
  simp only [bitwWidth, ← BitVec.toNat_inj, BitVec.toNat_ofNat]
  split <;> omega

/-- Settles O11: a width from 1 to 32 has the field `n mod 32`, and no other integer is admitted. -/
theorem bitWidthsReadBack : Obligations.BitWidthsReadBack := by
  refine ⟨fun n h => ⟨_, bitwField_of_width h, bitwWidth_ofNat h, fun hlt => ?_⟩,
    bitwField_of_width (n := 32) (by decide), fun _ => bitwField_eq_none, rfl, rfl, rfl⟩
  rw [BitVec.toNat_ofNat, Nat.mod_eq_of_lt hlt]

theorem byteszField_eq_none {n : Int} (h : n ≠ 1 ∧ n ≠ 2 ∧ n ≠ 4) : byteszField n = none := by
  obtain ⟨h1, h2, h4⟩ := h
  rw [byteszField, if_neg h1, if_neg h2, if_neg h4]

/-- Settles O12: the three sizes by their rows of `byteszField`, every other integer past all three. -/
theorem byteSizesEncodeAsLog : Obligations.ByteSizesEncodeAsLog :=
  ⟨rfl, rfl, rfl, fun _ => byteszField_eq_none, rfl, rfl, rfl⟩

end Sys2Proof.Asm
end

section
/-!
PROOFS. The family 40_und_pause.md: `UND` (R140, R141), `PAUSE` and `NOP` (R142, R144). The words of their two formats are
written as concatenations of their fields; the decoder's facts and the frame of `advance` give the rest.
-/

namespace Sys2Proof

/-- Two adjacent fields that fill the word, placed, are their concatenation (30_encoding.md R112). -/
theorem append_eq_place {n m : Nat} (f : BitVec n) (g : BitVec m) (h : n + m = 32) :
    (f ++ g).cast h = place m f ||| place 0 g := by
  ext i hi
  by_cases hm : i < m
  · simp [place, BitVec.getElem_append, hm]
  · have hf : i - m < n := by omega
    simp [place, BitVec.getElem_append, hm, show m ≤ i by omega, BitVec.getLsbD_eq_getElem hf]

/-- Format `P24`: the payload under the opcode (30_encoding.md R118). -/
theorem encodeP24_eq_append (p : BitVec 24) : encodeP24 p = 0x00#8 ++ p :=
  (append_eq_place 0x00#8 p rfl).symm

/-- Format `K6`: the opcode, 18 zeros and `k` (30_encoding.md R116). -/
theorem encodeK6_eq_append (k : BitVec 6) : encodeK6 k = 0x01#8 ++ 0#18 ++ k :=
  (append_eq_place (0x01#8 ++ 0#18) k rfl).symm

end Sys2Proof

namespace Sys2Proof.Machine

open Sys2Proof.Asm

/-- The row of `UND` is the first of the charts, and assigns its whole payload 0 (30_encoding.md R103; 40_und_pause.md
R140). -/
theorem assemble_und (link : LinkParameters) (at' : Word) :
    assemble link "UND".toList [] at' = some (encode (.und 0#24)) := rfl

theorem exec_und (p : BitVec 24) (s : State) :
    exec (.und p) s = .fault (.undefinedInstruction s.pc (encode (.und p))) := rfl

theorem exec_pause (k : BitVec 6) (s : State) : exec (.pause k) s = .next (advance s) := rfl

/-- `NOP` is `PAUSE 0` (40_und_pause.md R144). -/
theorem exec_nop (s : State) : exec .nop s = exec (.pause 0#6) s := rfl

/-- Settles O19: the row of `UND` assembles to the word of payload 0; the word of every payload is read back by the
decoder, and is what the fault records. -/
theorem undAlwaysFaults : Obligations.UndAlwaysFaults := by
  refine ⟨assemble_und, encodeP24_eq_append 0#24, fun p s => ?_⟩
  rw [← encodeP24_eq_append]
  exact ⟨decodeWord_encodeP24 p, exec_und p s⟩

/-- Settles O20: the word of every `k` is that of the format; a reserved bit is refused by the decoder; `PAUSE k` is
`advance` whatever `k` is, and `NOP` is one of them. -/
theorem pauseOnlyAdvances : Obligations.PauseOnlyAdvances := by
  refine ⟨encodeK6_eq_append 0#6, decodeWord_encodeK6 0#6, rfl,
    fun w hop hres => decodeWord_eq_reservedBits.2 ⟨rfl, .inl ⟨hop, hres⟩⟩,
    fun k s i hi => ⟨encodeK6_eq_append k, advance s, ?_, advance_pc s, fun j => readReg_advance s j, advance_flags s,
      fun a => congrArg (Mem.read · a) (advance_mem s), advance_launch s, advance_draws s⟩⟩
  rcases hi with rfl | rfl
  · exact exec_pause k s
  · exact (exec_nop s).trans (exec_pause 0#6 s)

end Sys2Proof.Machine
end

section
/-!
PROOFS. The family 41_mov.md: what the rows of opcode 0x02 do (R152, R153, R155 to R157), and the words of that opcode. The row
of a word is chosen by its fields, and a word whose reserved bits are 0 is filled by its fields, so the word that a row
records when it is refused is the word it was decoded from.
-/

namespace Sys2Proof

/-! ### A word and its fields -/

/-- Two adjacent fields of a word, placed where they were cut, are the one field they make up (30_encoding.md R112). -/
theorem place_extract_or_place_extract (w : Word) (lo n m : Nat) :
    place (lo + n) (w.extractLsb' (lo + n) m) ||| place lo (w.extractLsb' lo n) =
      place lo (w.extractLsb' lo (n + m)) := by
  ext i hi
  by_cases hlo : i < lo
  · simp [place, hlo, show i < lo + n by omega]
  · by_cases hn : i < lo + n
    · simp [place, hlo, hn, show i - lo < n by omega, show i - lo < n + m by omega]
    · have hm : i - (lo + n) < m ↔ i - lo < n + m := by omega
      simp [place, hlo, hn, hm, show ¬ i - lo < n by omega, show lo + n + (i - (lo + n)) = i by omega,
        show lo + (i - lo) = i by omega]

/-- The field of all 32 bits is the word. -/
theorem place_extract_all (w : Word) : place 0 (w.extractLsb' 0 32) = w := by
  simp [place]

/-- A word of opcode 0x02 whose reserved bits are 0 is that of its fields in format `RRC` (30_encoding.md R114, R122). -/
theorem encodeRRC_fields {w : Word} (hop : w.extractLsb' 24 8 = 0x02#8) (hres : w.extractLsb' 0 5 = 0#5) :
    encodeRRC (fieldD w) (fieldS w) (.ofNumber (w.extractLsb' 10 4)) (.ofNumber (w.extractLsb' 7 3))
      (w.extractLsb' 6 1) (w.extractLsb' 5 1) = w := by
  have join := place_extract_or_place_extract w
  calc
    _ = place 24 (w.extractLsb' 24 8) ||| place 19 (w.extractLsb' 19 5) ||| place 14 (w.extractLsb' 14 5) |||
          place 10 (w.extractLsb' 10 4) ||| place 7 (w.extractLsb' 7 3) ||| place 6 (w.extractLsb' 6 1) |||
          place 5 (w.extractLsb' 5 1) ||| place 0 (w.extractLsb' 0 5) := by
      simp [encodeRRC, fieldD, fieldS, hop, hres, place]
    _ = place 0 (w.extractLsb' 0 32) := by
      rw [join 19 5, join 14 5, join 10 4, join 7 3, join 6 1, join 5 1, join 0 5]
    _ = w := place_extract_all w

theorem decodeUnreserved_eq_ok {w : Word} {lo n : Nat} {i j : Instr} :
    decodeUnreserved w lo n i = .ok j ↔ w.extractLsb' lo n = 0#n ∧ i = j := by
  unfold decodeUnreserved
  split
  next h => simp [h]
  next h => simp [not_not.1 h]

/-! ### The rows of opcode 0x02 -/

/-- The row of opcode 0x02 that the decoder chooses by the fields (41_mov.md R150, R154). -/
def rowRRC (d s : RegIx) (cc : Cond) (m : RegMap) (r l : BitVec 1) : Instr :=
  if l = 1#1 then
    if r = 1#1 then .movlWrite cc m d s else if m = .gpr then .movlReg cc d s else .movlRead cc d m s
  else if m = .gpr then
    if r = 1#1 then .movcRegR1 cc d s else .movcReg cc d s
  else
    if r = 1#1 then .movcWrite cc m d s else .movcRead cc d m s

theorem decodeRRC_eq_rowRRC (w : Word) :
    decodeRRC w =
      rowRRC (fieldD w) (fieldS w) (.ofNumber (w.extractLsb' 10 4)) (.ofNumber (w.extractLsb' 7 3))
        (w.extractLsb' 6 1) (w.extractLsb' 5 1) := rfl

/-- The row chosen by the fields has the word of those fields. -/
theorem encode_rowRRC (d s : RegIx) (cc : Cond) (m : RegMap) (r l : BitVec 1) :
    encode (rowRRC d s cc m r l) = encodeRRC d s cc m r l := by
  have bit (b : BitVec 1) (h : b ≠ 1#1) : b = 0#1 := (BitVec.eq_zero_or_eq_one b).resolve_right h
  unfold rowRRC
  split
  next hl =>
    subst hl
    split
    next hr => rw [hr, encode]
    next hr =>
      obtain rfl := bit r hr
      split
      next hm => rw [hm, encode]
      next => rfl
  next hl =>
    obtain rfl := bit l hl
    split
    next hm =>
      split
      next hr => rw [hm, hr, encode]
      next hr => rw [hm, bit r hr, encode]
    next =>
      split
      next hr => rw [hr, encode]
      next hr => rw [bit r hr, encode]

/-- The decoder keeps every bit of a word of opcode 0x02 that it accepts. -/
theorem encode_decodeRRC {w : Word} (hop : w.extractLsb' 24 8 = 0x02#8) (hres : w.extractLsb' 0 5 = 0#5) :
    encode (decodeRRC w) = w := by
  rw [decodeRRC_eq_rowRRC, encode_rowRRC, encodeRRC_fields hop hres]

end Sys2Proof

namespace Sys2Proof.Machine

/-! ### What the rows do -/

section Moves
variable (cc : Cond) (m : RegMap) (d s : RegIx) (st : State)

theorem condMove_eq :
    condMove cc d s st =
      if condHolds cc st.flags = true then .next { writeReg d (readReg s st) st with pc := st.pc + 4#32 }
      else .next { st with pc := st.pc + 4#32 } := by
  unfold condMove
  split <;> rfl

/-- The map is tested by its number (41_mov.md R153). -/
theorem movMapped_eq (enc : Word) :
    movMapped cc m d s enc st =
      if m.number ≠ 0#3 then .refused (.unmodelledMap m.number enc) else condMove cc d s st := by
  simp only [movMapped, ite_not, RegMap.number_eq_zero, refuse]

theorem movMapped_of_ne (enc : Word) (h : m ≠ .gpr) :
    movMapped cc m d s enc st = .refused (.unmodelledMap m.number enc) := if_neg h

theorem exec_movcRead :
    exec (.movcRead cc d m s) st = movMapped cc m d s (encode (.movcRead cc d m s)) st := rfl

theorem exec_movcWrite :
    exec (.movcWrite cc m d s) st = movMapped cc m d s (encode (.movcWrite cc m d s)) st := rfl

/-- `MOV` is `MOVAL`, here and in the word (41_mov.md R157). -/
theorem exec_movRead : exec (.movRead d m s) st = movMapped .al m d s (encode (.movRead d m s)) st := rfl

theorem exec_movWrite : exec (.movWrite m d s) st = movMapped .al m d s (encode (.movWrite m d s)) st := rfl

theorem exec_movlReg : exec (.movlReg cc d s) st = .refused (.movlUnmodelled (encode (.movlReg cc d s))) := rfl

theorem exec_movlRead :
    exec (.movlRead cc d m s) st = .refused (.movlUnmodelled (encode (.movlRead cc d m s))) := rfl

theorem exec_movlWrite :
    exec (.movlWrite cc m d s) st = .refused (.movlUnmodelled (encode (.movlWrite cc m d s))) := rfl

/-- The bit `l` decides first; the rows with `l = 0` do the same with their fields, whatever `r` is (41_mov.md R153,
R154, R156). -/
theorem exec_rowRRC (r l : BitVec 1) :
    exec (rowRRC d s cc m r l) st =
      if l = 1#1 then .refused (.movlUnmodelled (encode (rowRRC d s cc m r l)))
      else movMapped cc m d s (encode (rowRRC d s cc m r l)) st := by
  unfold rowRRC
  split
  next =>
    split
    next => exact exec_movlWrite cc m d s st
    next =>
      split
      next => exact exec_movlReg cc d s st
      next => exact exec_movlRead cc m d s st
  next =>
    split
    next hm =>
      subst hm
      split <;> rfl
    next =>
      split
      next => exact exec_movcWrite cc m d s st
      next => exact exec_movcRead cc m d s st

end Moves

/-! ### The statements -/

/-- Settles O22: the four rows that name a map go through the one test of the map. -/
theorem movOfOtherMapsRefused : Obligations.MovOfOtherMapsRefused := fun cc m d s st h =>
  ⟨(exec_movcRead cc m d s st).trans (movMapped_of_ne cc m d s st _ h),
    (exec_movcWrite cc m d s st).trans (movMapped_of_ne cc m d s st _ h),
    (exec_movRead m d s st).trans (movMapped_of_ne .al m d s st _ h),
    (exec_movWrite m d s st).trans (movMapped_of_ne .al m d s st _ h)⟩

/-- Settles O23: each of the three rows is its refusal. -/
theorem movlRefused : Obligations.MovlRefused := fun cc m d s st =>
  ⟨exec_movlReg cc d s st, exec_movlRead cc m d s st, exec_movlWrite cc m d s st⟩

/-- Settles O24: a decoded word of opcode 0x02 has zeros in its reserved bits, so it is the word of the row its fields
choose; that row tests `l`, then the map, then the condition. -/
theorem movWordOutcomeOrder : Obligations.MovWordOutcomeOrder := by
  intro w i st hop hdec
  obtain ⟨hres, rfl⟩ := decodeUnreserved_eq_ok.1 ((decodeWord_op02 hop).symm.trans hdec)
  have hexec := exec_rowRRC (.ofNumber (w.extractLsb' 10 4)) (.ofNumber (w.extractLsb' 7 3)) (fieldD w) (fieldS w) st
    (w.extractLsb' 6 1) (w.extractLsb' 5 1)
  rw [← decodeRRC_eq_rowRRC, encode_decodeRRC hop hres, movMapped_eq, RegMap.number_ofNumber, condMove_eq] at hexec
  exact hexec

end Sys2Proof.Machine
end

section
/-!
PROOFS. The family 42_ld_st.md: `LD`, `ST`, `PUSH`, `POP` (R167 to R173). A written form is taken to the row it abbreviates;
that row is refused by its size field first (R171), `PUSH` and `POP` by their registers next (R172), and at the size that
the field names it begins with its access, whose answers are those of R57 and R58. What is left is the state after an
access that is done, read field by field.
-/

namespace Sys2Proof.Machine

/-! ### Written forms -/

/-- A written form does what the row it abbreviates does (30_encoding.md R126). -/
theorem exec_core (i : Instr) (s : State) : exec i.core s = exec i s := by cases i <;> rfl

/-- A written form has the word of the row it abbreviates (30_encoding.md R126). -/
theorem encode_core (i : Instr) : encode i.core = encode i := by cases i <;> rfl

/-! ### Refusals -/

/-- The forms written without a size have one (42_ld_st.md R165). -/
theorem wordField_ne_three : wordField ≠ 3#2 := by decide

/-- A written size assembles to its logarithm, never to 3 (30_encoding.md R97). -/
theorem byteszField_ne_three (n : Int) : Asm.byteszField n ≠ some 3#2 := by
  unfold Asm.byteszField
  split
  · decide
  · split
    · decide
    · split <;> decide

section Refusals
variable {α β : Type} {d s : RegIx} {w : BitVec 2} {q : Refusal}

theorem withTwoRegs_same {enc : Word} {r : Result α} : withTwoRegs d d enc r = .refused (.pushPopSameRegister enc) :=
  if_pos rfl

/-- An operation with a size is refused for the size field, or by what it does at the size. -/
theorem withSize_eq_refused {enc : Word} {f : Size → Result α} (h : withSize w enc f = .refused q) :
    q = .sizeReserved enc ∨ ∃ sz, f sz = .refused q := by
  unfold withSize at h
  split at h
  next sz _ => exact .inr ⟨sz, h⟩
  next => exact .inl (Host.Outcome.refused.inj h).symm

/-- What only completes after an operation adds no refusal to those of the operation. -/
theorem andThen_next_eq_refused {r : Result α} {f : α → β} :
    andThen r (fun a => .next (f a)) = .refused q ↔ r = .refused q := by
  cases r <;> simp [andThen]

theorem memRead_ne_refused {a : Word} {sz : Size} {st : State} : memRead a sz st ≠ .refused q := by
  unfold memRead
  split
  · nofun
  · split <;> nofun

/-- A store is refused only for a byte in `Text` (20_memory.md R58). -/
theorem memWrite_eq_refused {a v : Word} {sz : Size} {st : State} (h : memWrite a sz v st = .refused q) :
    q = .storeToText a := by
  unfold memWrite at h
  split at h
  · cases h
  · split at h
    · cases h
    · split at h
      · exact (Host.Outcome.refused.inj h).symm
      · cases h

/-- `LD` is refused only for its size field. -/
theorem exec_ld_eq_refused {st : State} (h : exec (.ld d s w) st = .refused q) :
    q = .sizeReserved (encode (.ld d s w)) := by
  obtain hq | ⟨sz, hsz⟩ := withSize_eq_refused h
  · exact hq
  · exact absurd (andThen_next_eq_refused.1 hsz) memRead_ne_refused

/-- `ST` is refused only for its size field, or for its access. -/
theorem exec_st_eq_refused {st : State} (h : exec (.st d s w) st = .refused q) :
    q = .sizeReserved (encode (.st d s w)) ∨ q = .storeToText (readReg d st) := by
  obtain hq | ⟨sz, hsz⟩ := withSize_eq_refused h
  · exact .inl hq
  · exact .inr (memWrite_eq_refused (andThen_next_eq_refused.1 hsz))

end Refusals

/-! The size field 3 of each of the four, the first test of all (42_ld_st.md R171, R174). -/

section SizeThree
variable (d s : RegIx) (st : State)

theorem exec_ld_three : exec (.ld d s 3#2) st = .refused (.sizeReserved (encode (.ld d s 3#2))) := rfl

theorem exec_st_three : exec (.st d s 3#2) st = .refused (.sizeReserved (encode (.st d s 3#2))) := rfl

theorem exec_push_three : exec (.push d s 3#2) st = .refused (.sizeReserved (encode (.push d s 3#2))) := rfl

theorem exec_pop_three : exec (.pop d s 3#2) st = .refused (.sizeReserved (encode (.pop d s 3#2))) := rfl

end SizeThree

section SameRegister
variable {d : RegIx} {w : BitVec 2} {i : Instr}

/-- `PUSH` with one register in both fields, in any of its written forms (42_ld_st.md R172). -/
theorem exec_push_same (hi : i.core = .push d d w) (hw : w ≠ 3#2) (st : State) :
    exec i st = .refused (.pushPopSameRegister (encode i)) := by
  rw [← exec_core, ← encode_core, hi]
  obtain ⟨sz, hsz, -⟩ := Size.ofField_some w hw
  exact (withSize_of_ofField hsz).trans withTwoRegs_same

/-- `POP` with one register in both fields, in any of its written forms (42_ld_st.md R172). -/
theorem exec_pop_same (hi : i.core = .pop d d w) (hw : w ≠ 3#2) (st : State) :
    exec i st = .refused (.pushPopSameRegister (encode i)) := by
  rw [← exec_core, ← encode_core, hi]
  obtain ⟨sz, hsz, -⟩ := Size.ofField_some w hw
  exact (withSize_of_ofField hsz).trans withTwoRegs_same

end SameRegister

/-! ### The state after an access that is done -/

section Done
variable {d s : RegIx} {w : BitVec 2} {sz : Size} {st : State}

theorem exec_ld_done (hsz : Size.ofField w = some sz) (h : (readReg s st).toNat % sz.bytes = 0)
    (hk : ∀ k < sz.bytes, st.launch.kind ((readReg s st).toNat + k) ≠ .unmapped) :
    exec (.ld d s w) st =
      .next (advance (writeReg d (loadValue (bytesAt st.mem (readReg s st) sz.bytes)) st)) := by
  rw [exec_ld_of_ofField hsz, memRead_eq_next.2 ⟨readable_of h hk, rfl⟩, andThen_next]

theorem exec_pop_done (hsz : Size.ofField w = some sz) (hne : d ≠ s) (h : (readReg s st).toNat % sz.bytes = 0)
    (hk : ∀ k < sz.bytes, st.launch.kind ((readReg s st).toNat + k) ≠ .unmapped) :
    exec (.pop d s w) st =
      .next (advance (writeReg s (popNext (readReg s st) sz)
        (writeReg d (loadValue (bytesAt st.mem (readReg s st) sz.bytes)) st))) := by
  rw [exec_pop_of_ofField hsz st hne, memRead_eq_next.2 ⟨readable_of h hk, rfl⟩, andThen_next]

theorem exec_st_done (hsz : Size.ofField w = some sz) (h : (readReg d st).toNat % sz.bytes = 0)
    (hk : ∀ k < sz.bytes, st.launch.kind ((readReg d st).toNat + k) = .data) :
    exec (.st d s w) st =
      .next (advance { st with mem := writeBytes st.mem (readReg d st) (leBytes sz.bytes (readReg s st)) }) := by
  rw [exec_st_of_ofField hsz, memWrite_data h hk, andThen_next]

theorem exec_push_done (hsz : Size.ofField w = some sz) (hne : d ≠ s) {a : Word} (ha : pushAddr (readReg d st) sz = a)
    (h : a.toNat % sz.bytes = 0) (hk : ∀ k < sz.bytes, st.launch.kind (a.toNat + k) = .data) :
    exec (.push d s w) st =
      .next (advance (writeReg d a { st with mem := writeBytes st.mem a (leBytes sz.bytes (readReg s st)) })) := by
  rw [exec_push_of_ofField hsz st hne, ha, memWrite_data h hk, andThen_next]

end Done

/-! ### The statements -/

/-- Settles O25: the answers of the read in turn, and the state after it. -/
theorem loadZeroExtends : Obligations.LoadZeroExtends := by
  intro d s w st i hi
  have hcore : i.core = .ld d s w := by rcases hi with rfl | ⟨rfl, rfl⟩ <;> rfl
  rw [← exec_core, ← encode_core, hcore]
  rcases eq_or_ne w 3#2 with rfl | hw
  · exact ⟨fun _ => exec_ld_three d s st, absurd rfl, absurd rfl, absurd rfl⟩
  · obtain ⟨sz, hsz, hbytes⟩ := Size.ofField_some w hw
    rw [← hbytes]
    refine ⟨(absurd · hw), fun _ hmis => ?misaligned, fun _ h hk => ?unmapped, fun _ h hk => ?done⟩
    case misaligned => rw [exec_ld_of_ofField hsz, memRead_misaligned hmis, andThen_fault]
    case unmapped => rw [exec_ld_of_ofField hsz, memRead_unmapped h hk, andThen_fault]
    case done =>
      refine ⟨_, exec_ld_done hsz h hk, rfl, fun k hk4 => ?loaded, fun j hj => readReg_writeReg_ne d _ st hj,
        rfl, fun _ => rfl, rfl, rfl⟩
      case loaded => rw [readReg_advance, readReg_writeReg_same, loadValue_byte st.mem h hk4]

/-- Settles O26: the answers of the write in turn, and the state after it. -/
theorem storeWritesLowBytes : Obligations.StoreWritesLowBytes := by
  intro d s w st i hi
  have hcore : i.core = .st d s w := by rcases hi with rfl | ⟨rfl, rfl⟩ <;> rfl
  rw [← exec_core, ← encode_core, hcore]
  rcases eq_or_ne w 3#2 with rfl | hw
  · exact ⟨fun _ => exec_st_three d s st, absurd rfl, absurd rfl, absurd rfl, absurd rfl⟩
  · obtain ⟨sz, hsz, hbytes⟩ := Size.ofField_some w hw
    rw [← hbytes]
    refine ⟨(absurd · hw), fun _ hmis => ?misaligned, fun _ h hk => ?unmapped, fun _ h hk ht => ?text,
      fun _ h hk => ?done⟩
    case misaligned => rw [exec_st_of_ofField hsz, memWrite_misaligned hmis, andThen_fault]
    case unmapped => rw [exec_st_of_ofField hsz, memWrite_unmapped h hk, andThen_fault]
    case text => rw [exec_st_of_ofField hsz, memWrite_text h hk ht, andThen_refused]
    case done =>
      exact ⟨_, exec_st_done hsz h hk, rfl, fun _ => read_store_inside st.mem _ h,
        fun _ => read_store_outside st.mem _ h, fun _ => rfl, rfl, rfl, rfl⟩

/-- Settles O27: the answers of the write at the lowered address in turn, and the state after it, in which the address
register keeps that address. -/
theorem pushStoresBelow : Obligations.PushStoresBelow := by
  intro d s w st i a hi ha
  have hcore : i.core = .push d s w := by rcases hi with rfl | ⟨rfl, rfl⟩ | ⟨rfl, rfl, rfl⟩ <;> rfl
  rw [← exec_core, ← encode_core, hcore]
  rcases eq_or_ne w 3#2 with rfl | hw
  · exact ⟨fun _ => exec_push_three d s st, absurd rfl, absurd rfl, absurd rfl, absurd rfl, absurd rfl⟩
  · obtain ⟨sz, hsz, hbytes⟩ := Size.ofField_some w hw
    rw [← hbytes] at ha ⊢
    have hadr : pushAddr (readReg d st) sz = a := (pushAddr_eq (readReg d st) sz).trans ha.symm
    refine ⟨(absurd · hw), fun _ hds => ?same, fun _ hne hmis => ?misaligned, fun _ hne h hk => ?unmapped,
      fun _ hne h hk ht => ?text, fun _ hne h hk => ?done⟩
    case same =>
      subst hds
      exact exec_push_same rfl hw st
    case misaligned => rw [exec_push_of_ofField hsz st hne, hadr, memWrite_misaligned hmis, andThen_fault]
    case unmapped => rw [exec_push_of_ofField hsz st hne, hadr, memWrite_unmapped h hk, andThen_fault]
    case text => rw [exec_push_of_ofField hsz st hne, hadr, memWrite_text h hk ht, andThen_refused]
    case done =>
      exact ⟨_, exec_push_done hsz hne hadr h hk, rfl, readReg_writeReg_same d a _,
        fun _ => read_store_inside st.mem _ h, fun _ => read_store_outside st.mem _ h,
        fun _ => readReg_writeReg_ne d a _, rfl, rfl, rfl⟩

/-- Settles O28: the answers of the read in turn, and the state after it, in which the address register is written last and
is another register than the one loaded. -/
theorem popLoadsAndRaises : Obligations.PopLoadsAndRaises := by
  intro d s w st i hi
  have hcore : i.core = .pop d s w := by rcases hi with rfl | ⟨rfl, rfl⟩ | ⟨rfl, rfl, rfl⟩ <;> rfl
  rw [← exec_core, ← encode_core, hcore]
  rcases eq_or_ne w 3#2 with rfl | hw
  · exact ⟨fun _ => exec_pop_three d s st, absurd rfl, absurd rfl, absurd rfl, absurd rfl⟩
  · obtain ⟨sz, hsz, hbytes⟩ := Size.ofField_some w hw
    rw [← hbytes]
    refine ⟨(absurd · hw), fun _ hds => ?same, fun _ hne hmis => ?misaligned, fun _ hne h hk => ?unmapped,
      fun _ hne h hk => ?done⟩
    case same =>
      subst hds
      exact exec_pop_same rfl hw st
    case misaligned => rw [exec_pop_of_ofField hsz st hne, memRead_misaligned hmis, andThen_fault]
    case unmapped => rw [exec_pop_of_ofField hsz st hne, memRead_unmapped h hk, andThen_fault]
    case done =>
      refine ⟨_, exec_pop_done hsz hne h hk, rfl, fun k hk4 => ?loaded, ?raised, fun j hjd hjs => ?other,
        rfl, fun _ => rfl, rfl, rfl⟩
      case loaded =>
        rw [readReg_advance, readReg_writeReg_ne s _ _ hne, readReg_writeReg_same, loadValue_byte st.mem h hk4]
      case raised => rw [readReg_advance, readReg_writeReg_same, popNext_eq, Size.toWord]
      case other => rw [readReg_advance, readReg_writeReg_ne s _ _ hjs, readReg_writeReg_ne d _ _ hjd]

/-- Settles O29: the size field is the first test of each of the four. -/
theorem sizeThreeRefused : Obligations.SizeThreeRefused :=
  ⟨byteszField_ne_three, fun d s st =>
    ⟨exec_ld_three d s st, exec_st_three d s st, exec_push_three d s st, exec_pop_three d s st⟩⟩

/-- Settles O30: `LD` and `ST` have no such refusal among theirs; each written form of `PUSH` and `POP` is the row with that
register in both fields. -/
theorem pushPopSameRegisterRefused : Obligations.PushPopSameRegisterRefused := by
  refine ⟨fun d w st v => ⟨fun h => ?load, fun h => ?store⟩, fun d w st hw =>
    ⟨exec_push_same rfl hw st, exec_pop_same rfl hw st,
      exec_push_same rfl wordField_ne_three st, exec_pop_same rfl wordField_ne_three st,
      exec_push_same rfl wordField_ne_three st, exec_pop_same rfl wordField_ne_three st⟩⟩
  case load => nomatch exec_ld_eq_refused h
  case store => rcases exec_st_eq_refused h with hq | hq <;> cases hq

end Sys2Proof.Machine
end

section
/-!
PROOFS. Encoder and decoder, the two round trips (30_encoding.md Parts D to F): the fields of an encoded word are those it was
made of, so decoding gives the row of the fields; a word whose reserved bits are 0 is filled by its fields, so encoding
gives the word back.
-/

namespace Sys2Proof

/-! ### Decoding an encoded instruction -/

/-- The row decoded from a word of format `RRC` is the one chosen by the fields it was made of (30_encoding.md R114). -/
theorem decodeWord_encodeRRC_eq_rowRRC (d s : RegIx) (cc : Cond) (m : RegMap) (r l : BitVec 1) :
    decodeWord (encodeRRC d s cc m r l) = .ok (rowRRC d s cc m r l) := by
  rw [decodeWord_encodeRRC, decodeRRC_eq_rowRRC]
  simp (disch := omega) [fieldD, fieldS, encodeRRC, extract_place_same, extract_place_above, extract_place_below]

/-- Decoding the word of a well-formed instruction: the format of the row, then the row its fields choose. -/
theorem decodeWord_encode {i : Instr} (h : i.wf = true) : decodeWord (encode i) = .ok i.core := by
  have rrc := decodeWord_encodeRRC_eq_rowRRC
  cases i with
  | und p => exact decodeWord_encodeP24 p
  | pause | nop => exact decodeWord_encodeK6 _
  | movcReg cc d s => exact rrc d s cc .gpr 0#1 0#1
  | movcRegR1 cc d s => exact rrc d s cc .gpr 1#1 0#1
  | movReg d s => exact rrc d s .al .gpr 0#1 0#1
  | movlReg cc d s => exact rrc d s cc .gpr 0#1 1#1
  | movlWrite cc m d s => exact rrc d s cc m 1#1 1#1
  | movcRead cc d m s => simpa [encode, Instr.core, rowRRC, bne_iff_ne.1 h] using rrc d s cc m 0#1 0#1
  | movcWrite cc m d s => simpa [encode, Instr.core, rowRRC, bne_iff_ne.1 h] using rrc d s cc m 1#1 0#1
  | movRead d m s => simpa [encode, Instr.core, rowRRC, bne_iff_ne.1 h] using rrc d s .al m 0#1 0#1
  | movWrite m d s => simpa [encode, Instr.core, rowRRC, bne_iff_ne.1 h] using rrc d s .al m 1#1 0#1
  | movlRead cc d m s => simpa [encode, Instr.core, rowRRC, bne_iff_ne.1 h] using rrc d s cc m 0#1 1#1
  | ld d s w => exact decodeWord_encodeRRW_load d s w 0#1
  | ldWord d s => exact decodeWord_encodeRRW_load d s wordField 0#1
  | pop d s w => exact decodeWord_encodeRRW_load d s w 1#1
  | popWord d s => exact decodeWord_encodeRRW_load d s wordField 1#1
  | popShort d => exact decodeWord_encodeRRW_load d stackReg wordField 1#1
  | st d s w => exact decodeWord_encodeRRW_store d s w 0#1
  | stWord d s => exact decodeWord_encodeRRW_store d s wordField 0#1
  | push d s w => exact decodeWord_encodeRRW_store d s w 1#1
  | pushWord d s => exact decodeWord_encodeRRW_store d s wordField 1#1
  | pushShort s => exact decodeWord_encodeRRW_store stackReg s wordField 1#1
  | addi d imm => exact decodeWord_encodeRI16 d imm

/-- Settles O1: the word of each row decodes to the row chosen by its fields, and a short form has the word of its row. -/
theorem decodeOfEncodeIsCore : Obligations.DecodeOfEncodeIsCore :=
  fun i h => ⟨decodeWord_encode h, Machine.encode_core i⟩

/-! ### Encoding a decoded instruction -/

section Fields
variable {w : Word}

/-- A word of opcode 0x00 is that of its payload (30_encoding.md R118). -/
theorem encodeP24_fields (hop : opcodeOf w = 0x00#8) : encodeP24 (w.extractLsb' 0 24) = w := by
  have join := place_extract_or_place_extract w
  calc
    _ = place 24 (opcodeOf w) ||| place 0 (w.extractLsb' 0 24) := by rw [hop]; rfl
    _ = place 0 (w.extractLsb' 0 32) := join 0 24 8
    _ = w := place_extract_all w

/-- A word of opcode 0x01 whose reserved bits are 0 is that of its `k` (30_encoding.md R116, R122). -/
theorem encodeK6_fields (hop : opcodeOf w = 0x01#8) (hres : w.extractLsb' 6 18 = 0#18) :
    encodeK6 (w.extractLsb' 0 6) = w := by
  have join := place_extract_or_place_extract w
  calc
    _ = place 24 (opcodeOf w) ||| place 6 (w.extractLsb' 6 18) ||| place 0 (w.extractLsb' 0 6) := by
      simp [encodeK6, hop, hres, place]
    _ = place 0 (w.extractLsb' 0 32) := by rw [opcodeOf, Config.layout_opcode, join 6 18, join 0 6]
    _ = w := place_extract_all w

/-- A word of a format `RRW` whose reserved bits are 0 is that of its fields (30_encoding.md R115, R122). -/
theorem encodeRRW_fields (hres : w.extractLsb' 0 11 = 0#11) :
    encodeRRW (opcodeOf w) (fieldD w) (fieldS w) (fieldW w) (fieldP w) = w := by
  have join := place_extract_or_place_extract w
  calc
    _ = place 24 (w.extractLsb' 24 8) ||| place 19 (w.extractLsb' 19 5) ||| place 14 (w.extractLsb' 14 5) |||
          place 12 (w.extractLsb' 12 2) ||| place 11 (w.extractLsb' 11 1) ||| place 0 (w.extractLsb' 0 11) := by
      simp [encodeRRW, opcodeOf, fieldD, fieldS, fieldW, fieldP, hres, place]
    _ = place 0 (w.extractLsb' 0 32) := by rw [join 19 5, join 14 5, join 12 2, join 11 1, join 0 11]
    _ = w := place_extract_all w

/-- A word of opcode 0x08 whose reserved bits are 0 is that of its fields (30_encoding.md R117, R122). -/
theorem encodeRI16_fields (hop : opcodeOf w = 0x08#8) (hres : w.extractLsb' 16 3 = 0#3) :
    encodeRI16 (fieldD w) (w.extractLsb' 0 16) = w := by
  have join := place_extract_or_place_extract w
  calc
    _ = place 24 (opcodeOf w) ||| place 19 (w.extractLsb' 19 5) ||| place 16 (w.extractLsb' 16 3) |||
          place 0 (w.extractLsb' 0 16) := by
      simp [encodeRI16, fieldD, hop, hres, place]
    _ = place 0 (w.extractLsb' 0 32) := by
      rw [opcodeOf, Config.layout_opcode, join 19 5, join 16 3, join 0 16]
    _ = w := place_extract_all w

end Fields

/-- The bit `p` of a load word chooses between `POP` and `LD`, and either has the word of its fields. -/
theorem encode_loadRow (d s : RegIx) (w : BitVec 2) (p : BitVec 1) :
    encode (if p = 1#1 then .pop d s w else .ld d s w) = encodeRRW 0x03#8 d s w p := by
  rcases BitVec.eq_zero_or_eq_one p with rfl | rfl <;> rfl

/-- The bit `p` of a store word chooses between `PUSH` and `ST`, and either has the word of its fields. -/
theorem encode_storeRow (d s : RegIx) (w : BitVec 2) (p : BitVec 1) :
    encode (if p = 1#1 then .push d s w else .st d s w) = encodeRRW 0x04#8 d s w p := by
  rcases BitVec.eq_zero_or_eq_one p with rfl | rfl <;> rfl

/-- The decoder drops no bit of a word it accepts. -/
theorem encode_of_decodeWord {w : Word} {i : Instr} (h : decodeWord w = .ok i) : encode i = w := by
  rcases opcode_cases (opcodeOf w) with hop | hop | hop | hop | hop | hop | hop
  · obtain rfl := Except.ok.inj ((decodeWord_op00 hop).symm.trans h)
    exact encodeP24_fields hop
  · obtain ⟨hres, rfl⟩ := decodeUnreserved_eq_ok.1 ((decodeWord_op01 hop).symm.trans h)
    exact encodeK6_fields hop hres
  · obtain ⟨hres, rfl⟩ := decodeUnreserved_eq_ok.1 ((decodeWord_op02 hop).symm.trans h)
    exact encode_decodeRRC hop hres
  · obtain ⟨hres, rfl⟩ := decodeUnreserved_eq_ok.1 ((decodeWord_op03 hop).symm.trans h)
    rw [encode_loadRow, ← hop, encodeRRW_fields hres]
  · obtain ⟨hres, rfl⟩ := decodeUnreserved_eq_ok.1 ((decodeWord_op04 hop).symm.trans h)
    rw [encode_storeRow, ← hop, encodeRRW_fields hres]
  · obtain ⟨hres, rfl⟩ := decodeUnreserved_eq_ok.1 ((decodeWord_op08 hop).symm.trans h)
    exact encodeRI16_fields hop hres
  · cases (decodeWord_notShown hop).symm.trans h

/-! ### The rows the decoder gives -/

/-- The term is a row of the decoder's own and well formed (30_encoding.md R106, R126). -/
def IsDecoderRow (i : Instr) : Prop := i.wf = true ∧ i.core = i

/-- The row chosen by the fields of opcode 0x02 names a map other than 0 where it is an `ANYREG` row. -/
theorem isDecoderRow_rowRRC (d s : RegIx) (cc : Cond) (m : RegMap) (r l : BitVec 1) :
    IsDecoderRow (rowRRC d s cc m r l) := by
  unfold rowRRC
  split
  · split
    · exact ⟨rfl, rfl⟩
    · split
      next => exact ⟨rfl, rfl⟩
      next hm => exact ⟨bne_iff_ne.2 hm, rfl⟩
  · split
    next => split <;> exact ⟨rfl, rfl⟩
    next hm => split <;> exact ⟨bne_iff_ne.2 hm, rfl⟩

theorem isDecoderRow_of_decodeWord {w : Word} {i : Instr} (h : decodeWord w = .ok i) : IsDecoderRow i := by
  rcases opcode_cases (opcodeOf w) with hop | hop | hop | hop | hop | hop | hop
  · obtain rfl := Except.ok.inj ((decodeWord_op00 hop).symm.trans h)
    exact ⟨rfl, rfl⟩
  · obtain ⟨-, rfl⟩ := decodeUnreserved_eq_ok.1 ((decodeWord_op01 hop).symm.trans h)
    exact ⟨rfl, rfl⟩
  · obtain ⟨-, rfl⟩ := decodeUnreserved_eq_ok.1 ((decodeWord_op02 hop).symm.trans h)
    exact isDecoderRow_rowRRC ..
  · obtain ⟨-, rfl⟩ := decodeUnreserved_eq_ok.1 ((decodeWord_op03 hop).symm.trans h)
    split <;> exact ⟨rfl, rfl⟩
  · obtain ⟨-, rfl⟩ := decodeUnreserved_eq_ok.1 ((decodeWord_op04 hop).symm.trans h)
    split <;> exact ⟨rfl, rfl⟩
  · obtain ⟨-, rfl⟩ := decodeUnreserved_eq_ok.1 ((decodeWord_op08 hop).symm.trans h)
    exact ⟨rfl, rfl⟩
  · cases (decodeWord_notShown hop).symm.trans h

/-- Settles O2: opcode by opcode, a word the decoder accepts is filled by the fields of its row, and that row is the
decoder's own. -/
theorem encodeOfDecodeIsWord : Obligations.EncodeOfDecodeIsWord :=
  fun _ _ h => ⟨encode_of_decodeWord h, isDecoderRow_of_decodeWord h⟩

/-- Settles O5: each word is the encoder's word of the instruction named, and that instruction decodes back. -/
theorem workedWordsDecode : Obligations.WorkedWordsDecode := by
  have worked {w : Word} (i : Instr) (hwf : i.wf = true) (hcore : i.core = i) (hw : encode i = w) :
      decodeWord w = .ok i := by
    rw [← hw, decodeWord_encode hwf, hcore]
  exact
    ⟨worked _ rfl rfl rfl, worked _ rfl rfl rfl, worked _ rfl rfl rfl, worked _ rfl rfl rfl, worked _ rfl rfl rfl,
      worked _ rfl rfl rfl, worked _ rfl rfl rfl, worked _ rfl rfl rfl, worked _ rfl rfl rfl, worked _ rfl rfl rfl,
      worked _ rfl rfl rfl, worked _ rfl rfl rfl, worked _ rfl rfl rfl⟩

end Sys2Proof
end

section
/-!
PROOFS. What `exec` does when it completes: the one way each row can, as the relation `Done`, and from it the frame of every
instruction. A frame is proved of the decoder's rows; a written form has it from the row it abbreviates, since it lists
the same registers and makes the same access.
-/

namespace Sys2Proof.Machine

/-! ### How a row completes -/

/-- The terms that move `x[r]` to `x[d]` on a condition: the two rows of map 0 and the rows of another map when that
map is 0 (41_mov.md R152, R154). -/
inductive IsMove (cc : Cond) (d r : RegIx) : Instr → Prop
  | reg : IsMove cc d r (.movcReg cc d r)
  | regR1 : IsMove cc d r (.movcRegR1 cc d r)
  | read : IsMove cc d r (.movcRead cc d .gpr r)
  | write : IsMove cc d r (.movcWrite cc .gpr d r)

/-- The rows that can complete at a state, each with the state it leaves. -/
inductive Done (s : State) : Instr → State → Prop
  | pause (k : BitVec 6) : Done s (.pause k) (advance s)
  | move {cc : Cond} {d r : RegIx} {i : Instr} (hi : IsMove cc d r i) :
      Done s i (advance (if condHolds cc s.flags then writeReg d (readReg r s) s else s))
  | ld (d r : RegIx) {w : BitVec 2} {sz : Size} (hsz : Size.ofField w = some sz) (hr : readable (readReg r s) sz s = true) :
      Done s (.ld d r w) (advance (writeReg d (loadValue (bytesAt s.mem (readReg r s) sz.bytes)) s))
  | st (d r : RegIx) {w : BitVec 2} {sz : Size} (hsz : Size.ofField w = some sz) (hw : writable (readReg d s) sz s = true) :
      Done s (.st d r w)
        (advance { s with mem := writeBytes s.mem (readReg d s) (leBytes sz.bytes (readReg r s)) })
  | push {d r : RegIx} {w : BitVec 2} {sz : Size} {a : Word} (hne : d ≠ r) (hsz : Size.ofField w = some sz)
      (ha : pushAddr (readReg d s) sz = a) (hw : writable a sz s = true) :
      Done s (.push d r w)
        (advance (writeReg d a { s with mem := writeBytes s.mem a (leBytes sz.bytes (readReg r s)) }))
  | pop {d r : RegIx} {w : BitVec 2} {sz : Size} (hne : d ≠ r) (hsz : Size.ofField w = some sz)
      (hr : readable (readReg r s) sz s = true) :
      Done s (.pop d r w)
        (advance (writeReg r (popNext (readReg r s) sz)
          (writeReg d (loadValue (bytesAt s.mem (readReg r s) sz.bytes)) s)))
  | addi (d : RegIx) (imm : BitVec 16) :
      Done s (.addi d imm) (advance (writeDrawnFlags (writeReg d (readReg d s + sextImm imm) s)))

section Exec
variable {s t : State}

theorem exec_of_isMove {cc : Cond} {d r : RegIx} {i : Instr} (hi : IsMove cc d r i) : exec i s = condMove cc d r s := by
  cases hi <;> rfl

theorem withTwoRegs_eq_next {α : Type} {d r : RegIx} {enc : Word} {f : Result α} {a : α} :
    withTwoRegs d r enc f = .next a ↔ d ≠ r ∧ f = .next a := by
  unfold withTwoRegs
  split
  next h => simp [h, refuse]
  next h => simp [h]

/-- A row does what `Done` says. -/
theorem Done.exec {i : Instr} (h : Done s i t) : exec i s = .next t := by
  cases h with
  | pause k => exact exec_pause k s
  | move hi => exact exec_of_isMove hi
  | ld d r hsz hr => rw [exec_ld_of_ofField hsz, memRead_eq_next.2 ⟨hr, rfl⟩, andThen_next]
  | st d r hsz hw => rw [exec_st_of_ofField hsz, memWrite_eq_next.2 ⟨hw, rfl⟩, andThen_next]
  | push hne hsz ha hw => rw [exec_push_of_ofField hsz s hne, ha, memWrite_eq_next.2 ⟨hw, rfl⟩, andThen_next]
  | pop hne hsz hr => rw [exec_pop_of_ofField hsz s hne, memRead_eq_next.2 ⟨hr, rfl⟩, andThen_next]
  | addi d imm => rfl

/-- A move completes only between general registers (41_mov.md R155). -/
theorem movMapped_eq_next {cc : Cond} {m : RegMap} {d r : RegIx} {enc : Word} :
    movMapped cc m d r enc s = .next t ↔ m = .gpr ∧ condMove cc d r s = .next t := by
  unfold movMapped
  split
  next h => simp [h]
  next h => simp [h, refuse]

theorem done_of_isMove {cc : Cond} {d r : RegIx} {i : Instr} (hi : IsMove cc d r i) (h : exec i s = .next t) :
    Done s i t :=
  Host.Outcome.next.inj ((exec_of_isMove hi).symm.trans h) ▸ .move hi

theorem done_of_movMapped {cc : Cond} {m : RegMap} {d r : RegIx} {enc : Word} {i : Instr}
    (h : movMapped cc m d r enc s = .next t) (hi : m = .gpr → IsMove cc d r i) : Done s i t := by
  obtain ⟨hm, h⟩ := movMapped_eq_next.1 h
  exact Host.Outcome.next.inj h ▸ .move (hi hm)

theorem done_of_execLd {d r : RegIx} {w : BitVec 2} (h : execLd d r w s = .next t) : Done s (.ld d r w) t := by
  obtain ⟨sz, hsz, h⟩ := withSize_eq_next.1 h
  obtain ⟨bs, hbs, h⟩ := andThen_eq_next.1 h
  obtain ⟨hr, rfl⟩ := memRead_eq_next.1 hbs
  exact Host.Outcome.next.inj h ▸ .ld d r hsz hr

theorem done_of_execSt {d r : RegIx} {w : BitVec 2} (h : execSt d r w s = .next t) : Done s (.st d r w) t := by
  obtain ⟨sz, hsz, h⟩ := withSize_eq_next.1 h
  obtain ⟨u, hu, h⟩ := andThen_eq_next.1 h
  obtain ⟨hw, rfl⟩ := memWrite_eq_next.1 hu
  exact Host.Outcome.next.inj h ▸ .st d r hsz hw

theorem done_of_execPush {d r : RegIx} {w : BitVec 2} (h : execPush d r w s = .next t) : Done s (.push d r w) t := by
  obtain ⟨sz, hsz, h⟩ := withSize_eq_next.1 h
  obtain ⟨hne, h⟩ := withTwoRegs_eq_next.1 h
  obtain ⟨u, hu, h⟩ := andThen_eq_next.1 h
  obtain ⟨hw, rfl⟩ := memWrite_eq_next.1 hu
  exact Host.Outcome.next.inj h ▸ .push hne hsz rfl hw

theorem done_of_execPop {d r : RegIx} {w : BitVec 2} (h : execPop d r w s = .next t) : Done s (.pop d r w) t := by
  obtain ⟨sz, hsz, h⟩ := withSize_eq_next.1 h
  obtain ⟨hne, h⟩ := withTwoRegs_eq_next.1 h
  obtain ⟨bs, hbs, h⟩ := andThen_eq_next.1 h
  obtain ⟨hr, rfl⟩ := memRead_eq_next.1 hbs
  exact Host.Outcome.next.inj h ▸ .pop hne hsz hr

/-- Whatever completes has done what its row does. -/
theorem done_of_exec {i : Instr} (h : exec i s = .next t) : Done s i.core t := by
  cases i with
  | und => exact absurd h raise_ne_next
  | movlReg | movlRead | movlWrite => exact absurd h refuse_ne_next
  | pause k => exact Host.Outcome.next.inj h ▸ .pause k
  | nop => exact Host.Outcome.next.inj h ▸ .pause 0#6
  | movcReg cc d r => exact done_of_isMove .reg h
  | movReg d r => exact done_of_isMove (i := .movcReg .al d r) .reg h
  | movcRegR1 cc d r => exact done_of_isMove .regR1 h
  | movcRead cc d m r | movRead d m r => exact done_of_movMapped h fun hm => hm ▸ .read
  | movcWrite cc m d r | movWrite m d r => exact done_of_movMapped h fun hm => hm ▸ .write
  | ld | ldWord => exact done_of_execLd h
  | st | stWord => exact done_of_execSt h
  | push | pushWord | pushShort => exact done_of_execPush h
  | pop | popWord | popShort => exact done_of_execPop h
  | addi d imm => exact Host.Outcome.next.inj h ▸ .addi d imm

/-- `exec` completes exactly as `Done` says of the row. -/
theorem exec_eq_next {i : Instr} : exec i s = .next t ↔ Done s i.core t :=
  ⟨done_of_exec, fun h => (exec_core i s).symm.trans h.exec⟩

end Exec

/-! ### A written form lists what its row does -/

section Core
variable (i : Instr)

theorem writtenRegs_core : writtenRegs i.core = writtenRegs i := by cases i <;> rfl
theorem isStore_core : isStore i.core = isStore i := by cases i <;> rfl
theorem isAddi_core : isAddi i.core = isAddi i := by cases i <;> rfl
theorem dataAccess_core (s : State) : dataAccess i.core s = dataAccess i s := by cases i <;> rfl

/-- `MOV` tests the condition Always of its row (41_mov.md R157). -/
theorem testedCond_core : testedCond i.core = testedCond i ∨ testedCond i.core = some .al := by
  cases i with
  | movReg | movRead | movWrite => exact .inr rfl
  | _ => exact .inl rfl

end Core

/-! ### The frame of a row that completes -/

section Frame
variable {s t : State} {i : Instr}

theorem Done.pc (h : Done s i t) : t.pc = s.pc + 4#32 := (exec_answers s i).next h.exec

theorem Done.launch (h : Done s i t) : t.launch = s.launch := by
  cases h with
  | move => rw [advance_launch]; split <;> rfl
  | _ => rfl

theorem Done.flags (h : Done s i t) (hi : isAddi i = false) : t.flags = s.flags := by
  cases h with
  | addi => cases hi
  | move => rw [advance_flags]; split <;> rfl
  | _ => rfl

theorem IsMove.writtenRegs {cc : Cond} {d r : RegIx} (h : IsMove cc d r i) : writtenRegs i = [d] := by cases h <;> rfl

theorem IsMove.testedCond {cc : Cond} {d r : RegIx} (h : IsMove cc d r i) : testedCond i = some cc := by cases h <;> rfl

/-- A register that the row does not list reads as before. -/
theorem Done.readReg (h : Done s i t) {j : RegIx} (hj : j ∉ writtenRegs i) : readReg j t = readReg j s := by
  cases h with
  | pause => rfl
  | move hi =>
    rw [hi.writtenRegs, List.mem_singleton] at hj
    rw [readReg_advance]
    split
    · exact readReg_writeReg_ne _ _ s hj
    · rfl
  | ld d => exact readReg_writeReg_ne d _ s (List.mem_singleton.not.1 hj)
  | st => rfl
  | push => exact readReg_writeReg_ne _ _ _ (List.mem_singleton.not.1 hj)
  | pop =>
    obtain ⟨hd, hr⟩ := not_or.1 (List.mem_pair.not.1 hj)
    exact (readReg_writeReg_ne _ _ _ hr).trans (readReg_writeReg_ne _ _ s hd)
  | addi d => exact readReg_writeReg_ne d _ s (List.mem_singleton.not.1 hj)

/-- Memory is as before, or is written where the data access of a store is, at an access that is allowed. -/
theorem Done.mem (h : Done s i t) :
    t.mem = s.mem ∨
      isStore i = true ∧ ∃ a sz v, dataAccess i s = some (a, sz) ∧ writable a sz s = true ∧
        t.mem = writeBytes s.mem a (leBytes sz.bytes v) := by
  cases h with
  | move => left; rw [advance_mem]; split <;> rfl
  | st d r hsz hw => exact .inr ⟨rfl, _, _, _, by simp [dataAccess, dataAccess.load, hsz], hw, rfl⟩
  | push hne hsz ha hw =>
    exact .inr ⟨rfl, _, _, _, by simp [dataAccess, dataAccess.lowered, hne, hsz, ha], hw, rfl⟩
  | _ => exact .inl rfl

end Frame

/-! ### The frame of an instruction -/

section Exec
variable {s t : State} {i : Instr}

theorem exec_launch (h : exec i s = .next t) : t.launch = s.launch := (done_of_exec h).launch

theorem exec_flags (h : exec i s = .next t) (hi : isAddi i = false) : t.flags = s.flags :=
  (done_of_exec h).flags ((isAddi_core i).trans hi)

theorem exec_readReg (h : exec i s = .next t) {j : RegIx} (hj : j ∉ writtenRegs i) : readReg j t = readReg j s :=
  (done_of_exec h).readReg (writtenRegs_core i ▸ hj)

theorem exec_mem (h : exec i s = .next t) :
    t.mem = s.mem ∨
      isStore i = true ∧ ∃ a sz v, dataAccess i s = some (a, sz) ∧ writable a sz s = true ∧
        t.mem = writeBytes s.mem a (leBytes sz.bytes v) := by
  have hmem := (done_of_exec h).mem
  rwa [isStore_core, dataAccess_core] at hmem

theorem exec_mem_of_not_isStore (h : exec i s = .next t) (hi : isStore i = false) : t.mem = s.mem := by
  rcases exec_mem h with hmem | ⟨hst, -⟩
  · exact hmem
  · rw [hi] at hst
    cases hst

/-- Memory stays in its canonical form, whatever is stored. -/
theorem exec_mem_wf (h : exec i s = .next t) (hwf : Mem.wf s.mem = true) : Mem.wf t.mem = true := by
  rcases exec_mem h with hmem | ⟨-, a, sz, v, -, -, hmem⟩
  · rwa [hmem]
  · rw [hmem]
    exact writeBytes_wf a _ hwf

/-- A byte that the instruction does not store to reads as before. -/
theorem exec_read_of_not_stored (h : exec i s = .next t) {b : Nat} (hb : isStore i = true → b ∉ dataBytes i s) :
    Mem.read t.mem b = Mem.read s.mem b := by
  rcases exec_mem h with hmem | ⟨hst, a, sz, v, hacc, hw, hmem⟩
  · rw [hmem]
  · have ha := mod_eq_zero_of_writable hw
    rw [hmem]
    refine read_store_outside s.mem v ha fun k hk e => hb hst ?_
    exact (mem_dataBytes hacc (aligned_iff.2 ha)).2 ⟨k, hk, (byteAddr_of_aligned ha hk).trans e.symm⟩

/-- A byte outside `Data` reads as before: a store that is done writes `Data` only (20_memory.md R67). -/
theorem exec_read_of_not_data (h : exec i s = .next t) {b : Nat} (hb : s.launch.kind b ≠ .data) :
    Mem.read t.mem b = Mem.read s.mem b := by
  rcases exec_mem h with hmem | ⟨-, a, sz, v, -, hw, hmem⟩
  · rw [hmem]
  · rw [hmem]
    refine read_store_outside s.mem v (mod_eq_zero_of_writable hw) fun k hk e => hb ?_
    rw [e]
    exact kind_of_writable hw hk

end Exec

/-! ### The statements about one instruction -/

/-- Settles O6: a written form is executed as the row it abbreviates. -/
theorem shortFormsActAsTheirExpansion : Obligations.ShortFormsActAsTheirExpansion :=
  fun i s => (exec_core i s).symm

/-- Settles O47: of the rows that complete, only `ADDI` ends with other flags. -/
theorem onlyAddiWritesFlags : Obligations.OnlyAddiWritesFlags := fun _ _ _ hi h => exec_flags h hi

/-- Settles O49: each row that completes writes only registers it lists. -/
theorem onlyListedRegistersChange : Obligations.OnlyListedRegistersChange := fun _ _ _ _ h hj => exec_readReg h hj

/-- Settles O50: of the rows that complete, only the stores end with another memory. -/
theorem onlyStoresWriteMemory : Obligations.OnlyStoresWriteMemory :=
  fun _ _ _ hi h a => congrArg (Mem.read · a) (exec_mem_of_not_isStore h hi)

/-- Neither Never nor Always depends on the flags (10_state.md R32). -/
theorem condHolds_of_constant {cc : Cond} (h : cc = .nv ∨ cc = .al) (f g : Flags) : condHolds cc f = condHolds cc g := by
  rcases h with rfl | rfl <;> rfl

/-- A row that tests no flag, or tests Never or Always, completes from any other flags with the same registers, memory,
`pc` and launch parameters. -/
theorem Done.with_flags {s t : State} {i : Instr} (h : Done s i t)
    (hi : testedCond i = none ∨ testedCond i = some .nv ∨ testedCond i = some .al) (f : Flags) :
    ∃ u, Done { s with flags := f } i u ∧ u.regs = t.regs ∧ u.mem = t.mem ∧ u.pc = t.pc ∧ u.launch = t.launch := by
  cases h with
  | pause k => exact ⟨_, .pause k, rfl, rfl, rfl, rfl⟩
  | move hm =>
    simp only [hm.testedCond, Option.some.injEq, reduceCtorEq, false_or] at hi
    rw [condHolds_of_constant hi s.flags f]
    refine ⟨_, .move hm, ?_⟩
    split <;> exact ⟨rfl, rfl, rfl, rfl⟩
  | ld d r hsz hr => exact ⟨_, .ld d r hsz hr, rfl, rfl, rfl, rfl⟩
  | st d r hsz hw => exact ⟨_, .st d r hsz hw, rfl, rfl, rfl, rfl⟩
  | push hne hsz ha hw => exact ⟨_, .push hne hsz ha hw, rfl, rfl, rfl, rfl⟩
  | pop hne hsz hr => exact ⟨_, .pop hne hsz hr, rfl, rfl, rfl, rfl⟩
  | addi d imm => exact ⟨_, .addi d imm, rfl, rfl, rfl, rfl⟩

/-- Settles O48: the row of the instruction completes from the other flags too. -/
theorem onlyConditionalMovesReadFlags : Obligations.OnlyConditionalMovesReadFlags := by
  intro i s t f hi h
  have hcore : testedCond i.core = none ∨ testedCond i.core = some .nv ∨ testedCond i.core = some .al := by
    rcases testedCond_core i with e | e
    · rwa [e]
    · exact .inr (.inr e)
  obtain ⟨u, hu, same⟩ := (done_of_exec h).with_flags hcore f
  exact ⟨u, exec_eq_next.2 hu, same⟩

/-- Settles O21: each of the seven terms is a move row, or a written form of one. -/
theorem movBetweenGeneralRegisters : Obligations.MovBetweenGeneralRegisters := by
  intro cc d r s i hi
  have hmove : IsMove cc d r i.core := by
    rcases hi with rfl | rfl | rfl | rfl | ⟨rfl, rfl | rfl | rfl⟩
    · exact .reg
    · exact .regR1
    · exact .read
    · exact .write
    · exact .reg
    · exact .read
    · exact .write
  refine ⟨_, exec_eq_next.2 (.move hmove), ?_⟩
  by_cases hc : condHolds cc s.flags = true
  · rw [if_pos hc, if_pos hc]
    exact ⟨rfl, readReg_writeReg_same d _ s, fun j hj => readReg_writeReg_ne d _ s hj, rfl, fun _ => rfl, rfl, rfl⟩
  · rw [if_neg hc, if_neg hc]
    exact ⟨rfl, rfl, fun _ _ => rfl, rfl, fun _ => rfl, rfl, rfl⟩

theorem exec_addi (d : RegIx) (imm : BitVec 16) (s : State) :
    exec (.addi d imm) s = .next (advance (writeDrawnFlags (writeReg d (readReg d s + sextImm imm) s))) := rfl

/-- The sum with a sign-extended immediate is the signed sum modulo `2^32` (43_addi.md R186). -/
theorem toNat_add_sextImm (x : Word) (imm : BitVec 16) :
    (x + sextImm imm).toNat = ((x.toNat + imm.toInt) % 2 ^ 32).toNat := by
  have hsext : (sextImm imm).toInt = imm.toInt := BitVec.toInt_signExtend_of_le (by decide)
  have himm : sextImm imm = BitVec.ofInt 32 imm.toInt := by rw [← hsext, BitVec.ofInt_toInt]
  have hx : x = BitVec.ofInt 32 x.toNat := by simp
  rw [himm]
  conv_lhs => rw [hx, ← BitVec.ofInt_add, BitVec.toNat_ofInt]
  rfl

/-- Settles O37: `ADDI` has one outcome, and the drawing of the flags leaves every other field. -/
theorem addiAddsSignedImmediate : Obligations.AddiAddsSignedImmediate := by
  refine fun d imm s => ⟨_, exec_addi d imm s, rfl, ?sum, fun j hj => ?other, fun _ => rfl, rfl⟩
  case sum => rw [readReg_advance, readReg_writeDrawnFlags, readReg_writeReg_same, toNat_add_sextImm]
  case other => rw [readReg_advance, readReg_writeDrawnFlags, readReg_writeReg_ne d _ s hj]

/-- Settles O38: the one outcome of `ADDI` has the flags that are drawn next. -/
theorem addiFlagsAreFreshDraws : Obligations.AddiFlagsAreFreshDraws := by
  intro d imm s t h
  obtain rfl := Host.Outcome.next.inj ((exec_addi d imm s).symm.trans h)
  exact ⟨rfl, rfl, rfl, rfl, rfl⟩

/-! ### A load after a store -/

/-- The bytes of a value, read back: its low bits, zero-extended (20_memory.md R54, R58). -/
theorem leWord_leBytes_eq (n : Nat) (v : Word) : leWord (leBytes n v) = (v.setWidth (8 * n)).setWidth 32 := by
  induction n generalizing v with
  | zero => rw [BitVec.eq_nil (v.setWidth (8 * 0))]; rfl
  | succ n ih =>
    ext i hi
    simp only [leBytes, leWord, ih]
    by_cases h8 : i < 8
    · simp [h8, show i < 8 * (n + 1) by omega, BitVec.getLsbD_eq_getElem hi]
    · simp [h8, show 8 + (i - 8) = i by omega, show (i - 8 < 8 * n) ↔ (i < 8 * (n + 1)) by omega,
        show i - 8 < 32 by omega, BitVec.getLsbD_eq_getElem hi]

theorem toNat_loadValue_stored (m : Mem) (a v : Word) (sz : Size) :
    (loadValue (bytesAt (writeBytes m a (leBytes sz.bytes v)) a sz.bytes)).toNat = v.toNat % 2 ^ (8 * sz.bytes) := by
  have hlen : (leBytes sz.bytes v).length = sz.bytes := leBytes_length _ _
  have hsz := sz.bytes_cases
  have hback := bytesAt_writeBytes m a (leBytes sz.bytes v) (by omega)
  rw [hlen] at hback
  rw [hback, loadValue_eq, leWord_leBytes_eq, BitVec.toNat_setWidth, BitVec.toNat_setWidth, Nat.mod_eq_of_lt]
  exact (Nat.mod_le _ _).trans_lt v.isLt

theorem readable_of_writable {a : Word} {sz : Size} {s : State} (h : writable a sz s = true) : readable a sz s = true :=
  (Bool.and_eq_true_iff.1 h).1

/-- Settles O34: the store leaves the address register and the map as they were, so the load reads the bytes stored. -/
theorem loadAfterStore : Obligations.LoadAfterStore := by
  intro d s x w st t h
  cases done_of_exec h with
  | move hi => cases hi
  | st _ _ hsz hw =>
    refine ⟨_, (Done.ld x d hsz ?_).exec, ?_⟩
    · exact readable_of_writable hw
    · rw [readReg_advance, readReg_writeReg_same, ← Size.bytes_of_ofField hsz]
      exact toNat_loadValue_stored ..

/-- What `POP` leaves in the address register is what `PUSH` found there (42_ld_st.md R169, R170). -/
theorem popNext_pushAddr (base : Word) (sz : Size) : popNext (pushAddr base sz) sz = base := by
  rw [popNext_eq, pushAddr_eq, BitVec.sub_add_cancel]

/-- Settles O35: after the store the address register holds the address stored at; the load reads the bytes there and
raises the register back. -/
theorem popUndoesPush : Obligations.PopUndoesPush := by
  intro d s x w st t hxd h
  cases done_of_exec h with
  | move hi => cases hi
  | @push _ _ _ sz a hne hsz ha hw =>
    have haddr : ∀ m : Mem, readReg d (advance (writeReg d a { st with mem := m })) = a := fun m =>
      readReg_writeReg_same d a _
    refine ⟨_, (Done.pop hxd hsz ?_).exec, ?base, ?value, fun j hj => ?other⟩
    · rw [haddr]
      exact readable_of_writable hw
    case base => rw [readReg_advance, readReg_writeReg_same, haddr, ← ha, popNext_pushAddr]
    case value =>
      rw [readReg_advance, readReg_writeReg_ne d _ _ hxd, readReg_writeReg_same, haddr, ← Size.bytes_of_ofField hsz]
      exact toNat_loadValue_stored ..
    case other =>
      rcases eq_or_ne j d with rfl | hjd
      · rw [readReg_advance, readReg_writeReg_same, haddr, ← ha, popNext_pushAddr]
      · rw [readReg_advance, readReg_writeReg_ne d _ _ hjd, readReg_writeReg_ne x _ _ hj, readReg_advance,
          readReg_writeReg_ne d _ _ hjd, readReg_setMem]

end Sys2Proof.Machine
end

section
/-!
PROOFS. One step (60_exceptions.md R205), what every step keeps, and runs of steps. A step that completes has the frame of the
instruction it ran, so it keeps the invariant and every byte outside `Data`; a run of them moves `pc` along a straight
line, which meets `END_ADDR` in time.
-/

namespace Sys2Proof.Machine

/-! ### One step, by what it fetches -/

section Step
variable {s : State}

theorem step_of_final (h : s.final) : step s = .refused (.runEnded s.pc) := if_pos h

/-- Once a word is fetched, the step is the decoder's answer and what follows it. -/
theorem step_of_fetch (h : ¬ s.final) {w : Word} (hw : fetch s = .next w) :
    step s = andThen (decodeFetched w) fun i => exec i s := by
  rw [step_of_not_final h, hw, andThen_next]

theorem fetch_of_all_text (h : ∀ k < 4, s.launch.kind (byteAddr s.pc k) = .text) :
    fetch s = .next (leWord (bytesAt s.mem s.pc 4)) := by
  have other (kind : Kind) (hne : Kind.text ≠ kind) : anyByte s.launch s.pc Config.instrBytes kind = false :=
    anyByte_eq_false.2 fun k hk => by rw [h k hk]; exact hne
  exact fetch_eq_next.2 ⟨other .unmapped nofun, other .data nofun, rfl⟩

/-- The decoder on a stream of four bytes reads their word (30_encoding.md R110). -/
theorem decodeWord_of_decodeBytes {bs : List Byte} (hlen : bs.length = 4) {i : Instr} {rest : List Byte}
    (h : decodeBytes bs = .ok (i, rest)) : decodeWord (leWord bs) = .ok i := by
  match bs, hlen with
  | [b0, b1, b2, b3], _ =>
    cases hw : decodeWord (leWord [b0, b1, b2, b3]) with
    | ok j =>
      simp only [decodeBytes, wordOfBytes_eq, hw, Except.ok.injEq, Prod.mk.injEq] at h
      rw [h.1]
    | error e => simp [decodeBytes, hw] at h

theorem fetch_unmapped {k : Nat} (hk : k < 4) (h : s.launch.kind (byteAddr s.pc k) = .unmapped) :
    fetch s = .fault (.accessFault s.pc s.pc) :=
  if_pos (anyByte_eq_true.2 ⟨k, hk, h⟩)

theorem fetch_data {k : Nat} (hk : k < 4) (h : s.launch.kind (byteAddr s.pc k) = .data)
    (hmapped : ∀ j < 4, s.launch.kind (byteAddr s.pc j) ≠ .unmapped) : fetch s = .refused (.fetchOutsideText s.pc) := by
  have hun : anyByte s.launch s.pc Config.instrBytes .unmapped = false := anyByte_eq_false.2 hmapped
  have hdata : anyByte s.launch s.pc Config.instrBytes .data = true := anyByte_eq_true.2 ⟨k, hk, h⟩
  rw [fetch, hun, hdata]
  rfl

end Step

/-- Settles O39: four bytes in `Text` are fetched, and the word they make decodes as they do. -/
theorem stepRunsDecodedInstruction : Obligations.StepRunsDecodedInstruction := by
  intro s i rest hend htext hdec
  have hword := decodeWord_of_decodeBytes (by simp [bytesAt]) hdec
  rw [step_of_fetch hend (fetch_of_all_text htext), decodeFetched_eq_next.2 hword, andThen_next]

/-- Settles O40: the two answers of the fetch that stop it are those of the step. -/
theorem fetchOutsideTextStops : Obligations.FetchOutsideTextStops := by
  refine fun s k hend hk => ⟨fun h => ?unmapped, fun h hmapped => ?data⟩
  case unmapped => rw [step_of_not_final hend, fetch_unmapped hk h, andThen_fault]
  case data => rw [step_of_not_final hend, fetch_data hk h hmapped, andThen_refused]

/-- Settles O41: the end of the run is the first test of a step. -/
theorem noStepAfterTheEnd : Obligations.NoStepAfterTheEnd := fun _ h => step_of_final h

/-! ### A placed word -/

/-- A state with a word placed at `pc` has not ended: the end of the run is moved past the word (log entry 8). -/
theorem placeWord_not_final (w : Word) (s : State) : ¬ (placeWord w s).final := by
  show s.pc ≠ if s.pc = s.launch.endAddr then s.pc + 4#32 else s.launch.endAddr
  split
  · bv_omega
  · assumption

theorem fetch_placeWord (w : Word) (s : State) : fetch (placeWord w s) = .next w := by
  have hfetch := fetch_of_all_text (s := placeWord w s) fun _ hk => kind_placeWord w s hk
  have hbytes : bytesAt (placeWord w s).mem (placeWord w s).pc 4 = leBytes 4 w := bytesAt_placeWord w s
  rwa [hbytes, leWord_leBytes] at hfetch

/-- The next step decodes the placed word. -/
theorem step_placeWord (w : Word) (s : State) :
    step (placeWord w s) = andThen (decodeFetched w) fun i => exec i (placeWord w s) :=
  step_of_fetch (placeWord_not_final w s) (fetch_placeWord w s)

theorem tableWord_toNat (w : Word) : tableWord 32 w.toNat = w := by
  rw [tableWord, Nat.mod_eq_of_lt w.isLt, BitVec.ofNat_toNat, BitVec.setWidth_eq]

/-- A table word is read through its bytes, which make the word. -/
theorem decodeWord_of_decodeTableWord {n w : Nat} {i : Instr} (h : decodeTableWord n w = some i) :
    decodeWord (tableWord n w) = .ok i := by
  unfold decodeTableWord at h
  split at h
  next j rest hj =>
    cases h
    have hword := decodeWord_of_decodeBytes (leBytes_length 4 _) hj
    rwa [leWord_leBytes] at hword
  next => cases h

/-- Settles O42: the placed word is fetched, and it decodes as the table word does. -/
theorem placedWordRunsNext : Obligations.PlacedWordRunsNext := by
  intro s w i h
  rw [State.withFetchWord, step_placeWord, decodeFetched_eq_next.2 (decodeWord_of_decodeTableWord h), andThen_next]

theorem decodeFetched_reservedBits {w v : Word} (h : decodeWord w = .error (.reservedBits v)) :
    decodeFetched w = .refused (.reservedBits v) := by
  rw [decodeFetched, h]
  rfl

theorem decodeFetched_opcodeNotShown {w : Word} {op : BitVec 8} (h : decodeWord w = .error (.opcodeNotShown op)) :
    decodeFetched w = .refused (.opcodeNotShown op) := by
  rw [decodeFetched, h]
  rfl

/-- Settles O43: the placed word is fetched, and the decoder's refusal of it is that of the step. -/
theorem placedWordRefusedByName : Obligations.PlacedWordRefusedByName := by
  intro s w
  rw [State.withFetchWord, tableWord_toNat, step_placeWord]
  exact ⟨fun h => by rw [decodeFetched_reservedBits h, andThen_refused],
    fun op h => by rw [decodeFetched_opcodeNotShown h, andThen_refused]⟩

/-! ### What every step keeps -/

section Keeps
variable {s t : State}

theorem step_pc (h : step s = .next t) : t.pc = s.pc + 4#32 := (step_answers s).next h

theorem step_launch (h : step s = .next t) : t.launch = s.launch := by
  obtain ⟨i, -, hi⟩ := instrAt_of_step h
  exact exec_launch hi

theorem step_read_of_not_data (h : step s = .next t) {b : Nat} (hb : s.launch.kind b ≠ .data) :
    Mem.read t.mem b = Mem.read s.mem b := by
  obtain ⟨i, -, hi⟩ := instrAt_of_step h
  exact exec_read_of_not_data hi hb

/-- `2^32` is a multiple of 4, so adding 4 keeps a multiple of 4 even where it wraps (10_state.md R26). -/
theorem add_four_mod_four {a : Word} (h : a.toNat % 4 = 0) : (a + 4#32).toNat % 4 = 0 := by
  rw [BitVec.toNat_add]
  simp only [BitVec.toNat_ofNat]
  omega

theorem step_inv (hs : s.Inv) (h : step s = .next t) : t.Inv := by
  obtain ⟨hpc, hmem⟩ := hs
  obtain ⟨i, -, hi⟩ := instrAt_of_step h
  exact ⟨by rw [step_pc h]; exact add_four_mod_four hpc, exec_mem_wf hi hmem⟩

end Keeps

/-- Settles O45: the next `pc` is 4 further, and an instruction that completes leaves memory as it was or with a store. -/
theorem stepKeepsInvariant : Obligations.StepKeepsInvariant := fun _ _ => step_inv

/-- Settles O46: the instruction that the step ran changes no byte outside `Data` and no launch parameter. -/
theorem textIsImmutable : Obligations.TextIsImmutable :=
  fun _ _ h => ⟨fun _ => step_read_of_not_data h, step_launch h⟩

/-! ### Runs -/

section Runs
variable {s t : State}

theorem runSteps_succ_eq_next {n : Nat} :
    runSteps (n + 1) s = .next t ↔ ∃ u, runSteps n s = .next u ∧ step u = .next t := by
  rw [runSteps_succ, andThen_eq_next]

theorem runSteps_launch {n : Nat} (h : runSteps n s = .next t) : t.launch = s.launch := by
  induction n generalizing t with
  | zero => cases h; rfl
  | succ n ih =>
    obtain ⟨u, hu, ht⟩ := runSteps_succ_eq_next.1 h
    exact (step_launch ht).trans (ih hu)

theorem runSteps_pc {n : Nat} (h : runSteps n s = .next t) : t.pc = s.pc + BitVec.ofNat 32 (4 * n) := by
  induction n generalizing t with
  | zero =>
    cases h
    exact (BitVec.add_zero _).symm
  | succ n ih =>
    obtain ⟨u, hu, ht⟩ := runSteps_succ_eq_next.1 h
    rw [step_pc ht, ih hu, BitVec.add_assoc, ← BitVec.ofNat_add, Nat.mul_succ]

theorem runSteps_inv {n : Nat} (h : runSteps n s = .next t) (hs : s.Inv) : t.Inv := by
  induction n generalizing t with
  | zero => cases h; exact hs
  | succ n ih =>
    obtain ⟨u, hu, ht⟩ := runSteps_succ_eq_next.1 h
    exact step_inv (ih hu) ht

theorem runSteps_read_of_not_data {n : Nat} (h : runSteps n s = .next t) {b : Nat} (hb : s.launch.kind b ≠ .data) :
    Mem.read t.mem b = Mem.read s.mem b := by
  induction n generalizing t with
  | zero => cases h; rfl
  | succ n ih =>
    obtain ⟨u, hu, ht⟩ := runSteps_succ_eq_next.1 h
    exact (step_read_of_not_data ht (by rwa [runSteps_launch hu])).trans (ih hu)

/-- A run that completes has completed every shorter one. -/
theorem completes_runSteps_of_le {m n : Nat} (hmn : m ≤ n) (h : completes (runSteps n s)) : completes (runSteps m s) := by
  induction n, hmn using Nat.le_induction with
  | base => exact h
  | succ n _ ih =>
    obtain ⟨t, ht⟩ := h
    obtain ⟨u, hu, -⟩ := runSteps_succ_eq_next.1 ht
    exact ih ⟨u, hu⟩

/-- A run that has reached `END_ADDR` completes no further step. -/
theorem not_completes_past_final {n : Nat} (h : runSteps n s = .next t) (hfin : t.final) :
    ¬ completes (runSteps (n + 1) s) := by
  rintro ⟨u, hu⟩
  rw [runSteps_succ, h, andThen_next, step_of_final hfin] at hu
  cases hu

end Runs

/-- Settles O51: by induction over the run, a step at a time from its end. -/
theorem runIsAStraightLine : Obligations.RunIsAStraightLine :=
  fun _ _ _ h => ⟨runSteps_pc h, runSteps_launch h, runSteps_inv h⟩

/-- Settles O53: by induction over the run; the launch parameters stay, so that what is not `Data` stays so. -/
theorem runKeepsText : Obligations.RunKeepsText := fun _ _ _ _ h => runSteps_read_of_not_data h

/-- From a multiple of 4 to a multiple of 4 there are a whole number of words, modulo `2^32`. -/
theorem add_words_to_end {a b : Word} (ha : a.toNat % 4 = 0) (hb : b.toNat % 4 = 0) :
    a + BitVec.ofNat 32 (4 * ((b - a).toNat / 4)) = b := by
  have hword : 4 * ((b - a).toNat / 4) = (b - a).toNat := by
    rw [BitVec.toNat_sub]
    omega
  rw [hword, BitVec.ofNat_toNat, BitVec.setWidth_eq, BitVec.add_comm, BitVec.sub_add_cancel]

/-- Settles O52: a longer run would pass the state whose `pc` is `END_ADDR`, at which there is no step. -/
theorem everyRunEndsInTime : Obligations.EveryRunEndsInTime := by
  intro s n hpc hend hn hrun
  obtain ⟨t, ht⟩ := completes_runSteps_of_le hn.le hrun
  have hfin : t.final := by
    show t.pc = t.launch.endAddr
    rw [runSteps_pc ht, runSteps_launch ht, add_words_to_end hpc hend]
  exact not_completes_past_final ht hfin (completes_runSteps_of_le hn hrun)

end Sys2Proof.Machine
end

section
/-!
PROOFS. The launch premises (70_reset_and_hazards.md R232). An observed run that goes as the decisions say is a run of `step`, so
it has the frames of its steps; and an access fault of a step is raised for a byte that the step touches.
-/

namespace Sys2Proof.Machine

/-! ### The premises that speak of the outside -/

/-- Settles O56: each state seen is the step of the one before it, which has the frame of the instruction at `pc`. -/
theorem modelRunsMeetThePremises : Obligations.ModelRunsMeetThePremises := by
  refine fun observed hdec => ⟨fun s t hst a ha => ?writer, fun s t hst => ?interrupt, fun s t hst a ha => ?text⟩
  all_goals
    have hstep := hdec s t hst
    obtain ⟨i, hi, hexec⟩ := instrAt_of_step hstep
  case writer =>
    refine exec_read_of_not_stored hexec fun hstore hmem => ha ?_
    simpa [storedBytes, hi, hstore] using hmem
  case interrupt =>
    refine ⟨step_pc hstep, fun j hj => ?_⟩
    obtain rfl := Option.some.inj (hi.symm.trans hj)
    exact ⟨fun _ => exec_readReg hexec, exec_flags hexec⟩
  case text =>
    refine step_read_of_not_data hstep ?_
    rw [ha]
    decide

/-! ### The program of a launched run -/

/-- The `k`-th state seen is that of `k` steps. -/
theorem runSteps_of_observed {observed : List State} (hdec : DecisionsHold observed) {s : State}
    (hbegin : observed[0]? = some s) {k : Nat} {t : State} (ht : observed[k]? = some t) : runSteps k s = .next t := by
  induction k generalizing t with
  | zero =>
    obtain rfl := Option.some.inj (hbegin.symm.trans ht)
    rfl
  | succ k ih =>
    obtain ⟨hlt, -⟩ := List.getElem?_eq_some_iff.1 ht
    have hu := List.getElem?_eq_getElem (Nat.lt_of_succ_lt hlt)
    exact runSteps_succ_eq_next.2 ⟨_, ih hu, hdec _ t ⟨k, hu, ht⟩⟩

/-- After `k` steps of a run that has not ended, the fetch reads the `k`-th word of the program: its bytes are `Text`, which
no step has changed. -/
theorem fetch_of_runSteps {program : List Word} {s t : State} {k : Nat} (hmem : MemDescribesLaunch program s)
    (hrun : runSteps k s = .next t) {w : Word} (hw : program[k]? = some w) (hend : ¬ t.final) : fetch t = .next w := by
  have hpc := runSteps_pc hrun
  have hlaunch := runSteps_launch hrun
  have hne : s.pc + BitVec.ofNat 32 (4 * k) ≠ s.launch.endAddr := by
    rw [← hpc, ← hlaunch]
    exact hend
  refine fetch_of_text fun j hj => ?_
  obtain ⟨hkind, hread⟩ := hmem.1 k w hw hne j hj
  rw [hlaunch, hpc]
  refine ⟨hkind, (runSteps_read_of_not_data hrun ?_).trans hread⟩
  rw [hkind]
  decide

/-- Settles O57: the states seen are those of the run, `pc` moves along a straight line, and the fetch reads the program. -/
theorem launchedRunExecutesTheProgram : Obligations.LaunchedRunExecutesTheProgram := by
  intro start s rv program observed prem k t ht
  obtain ⟨hbegin, hrv⟩ := prem.begins
  have hrun := runSteps_of_observed prem.decisionsHold hbegin ht
  refine ⟨hrun, hrv ▸ runSteps_pc hrun, fun w hw hend => ?_⟩
  have hfetch := fetch_of_runSteps prem.memDescribesLaunch hrun hw hend
  exact ⟨hfetch, step_of_fetch hend hfetch⟩

/-! ### The access fault -/

/-- A result that is the access fault only if some address of the list is unmapped. -/
def FaultsWithin (l : Launch) (touched : List Nat) {α : Type} (r : Result α) : Prop :=
  ∀ a p, r = .fault (.accessFault a p) → ∃ b ∈ touched, l.kind b = .unmapped

section Rules
variable {l : Launch} {touched : List Nat} {α β : Type}

theorem faultsWithin_next (a : α) : FaultsWithin l touched (.next a : Result α) := nofun

theorem faultsWithin_refuse (q : Refusal) : FaultsWithin l touched (refuse q : Result α) := nofun

theorem FaultsWithin.andThen_next {r : Result β} (hr : FaultsWithin l touched r) (f : β → α) :
    FaultsWithin l touched (andThen r fun b => .next (f b)) := by
  cases r with
  | next b => exact faultsWithin_next _
  | fault e => exact fun a p h => hr a p (congrArg _ (Host.Outcome.fault.inj h))
  | refused q => exact faultsWithin_refuse q

/-- An operation with a size, when each size its field names is the one its touched bytes are listed for. -/
theorem faultsWithin_withSize {w : BitVec 2} {enc : Word} {f : Size → Result α}
    (hf : ∀ sz, Size.ofField w = some sz → FaultsWithin l touched (f sz)) :
    FaultsWithin l touched (withSize w enc f) := by
  unfold withSize
  split
  next sz hsz => exact hf sz hsz
  next => exact faultsWithin_refuse _

theorem faultsWithin_withTwoRegs {d s : RegIx} {enc : Word} {r : Result α} (hr : d ≠ s → FaultsWithin l touched r) :
    FaultsWithin l touched (withTwoRegs d s enc r) := by
  unfold withTwoRegs
  split
  next => exact faultsWithin_refuse _
  next h => exact hr h

end Rules

section Access
variable {i : Instr} {s : State} {a : Word} {sz : Size}

/-- A byte of an aligned access that is unmapped is one the instruction touches. -/
theorem exists_unmapped_dataByte (hacc : dataAccess i s = some (a, sz)) (hal : aligned a sz = true)
    (hun : anyByte s.launch a sz.bytes .unmapped = true) : ∃ b ∈ dataBytes i s, s.launch.kind b = .unmapped := by
  obtain ⟨k, hk, hkind⟩ := anyByte_eq_true.1 hun
  exact ⟨byteAddr a k, (mem_dataBytes hacc hal).2 ⟨k, hk, rfl⟩, hkind⟩

theorem memRead_faultsWithin (hacc : dataAccess i s = some (a, sz)) :
    FaultsWithin s.launch (dataBytes i s) (memRead a sz s) := by
  intro b p h
  unfold memRead at h
  split at h
  · cases h
  next hal =>
    split at h
    next hun => exact exists_unmapped_dataByte hacc (by simpa using hal) hun
    · cases h

theorem memWrite_faultsWithin (hacc : dataAccess i s = some (a, sz)) (v : Word) :
    FaultsWithin s.launch (dataBytes i s) (memWrite a sz v s) := by
  intro b p h
  unfold memWrite at h
  split at h
  · cases h
  next hal =>
    split at h
    next hun => exact exists_unmapped_dataByte hacc (by simpa using hal) hun
    next => split at h <;> cases h

end Access

section Instructions
variable (s : State)

theorem movMapped_faultsWithin (touched : List Nat) (cc : Cond) (m : RegMap) (d r : RegIx) (enc : Word) :
    FaultsWithin s.launch touched (movMapped cc m d r enc s) := by
  unfold movMapped
  split
  · exact faultsWithin_next _
  · exact faultsWithin_refuse _

theorem execLd_faultsWithin (d r : RegIx) (w : BitVec 2) :
    FaultsWithin s.launch (dataBytes (.ld d r w) s) (execLd d r w s) :=
  faultsWithin_withSize fun sz hsz =>
    (memRead_faultsWithin (by simp [dataAccess, dataAccess.load, hsz])).andThen_next _

theorem execSt_faultsWithin (d r : RegIx) (w : BitVec 2) :
    FaultsWithin s.launch (dataBytes (.st d r w) s) (execSt d r w s) :=
  faultsWithin_withSize fun sz hsz =>
    (memWrite_faultsWithin (by simp [dataAccess, dataAccess.load, hsz]) _).andThen_next _

theorem execPush_faultsWithin (d r : RegIx) (w : BitVec 2) :
    FaultsWithin s.launch (dataBytes (.push d r w) s) (execPush d r w s) :=
  faultsWithin_withSize fun sz hsz => faultsWithin_withTwoRegs fun hne =>
    (memWrite_faultsWithin (by simp [dataAccess, dataAccess.lowered, hne, hsz]) _).andThen_next _

theorem execPop_faultsWithin (d r : RegIx) (w : BitVec 2) :
    FaultsWithin s.launch (dataBytes (.pop d r w) s) (execPop d r w s) :=
  faultsWithin_withSize fun sz hsz => faultsWithin_withTwoRegs fun hne =>
    (memRead_faultsWithin (by simp [dataAccess, dataAccess.load, hne, hsz])).andThen_next _

/-- The access fault of an instruction is for a byte of its own data access (20_memory.md R57, R58). -/
theorem exec_faultsWithin (i : Instr) : FaultsWithin s.launch (dataBytes i s) (exec i s) := by
  cases i with
  | und => nofun
  | pause | nop | addi => exact faultsWithin_next _
  | movlReg | movlRead | movlWrite => exact faultsWithin_refuse _
  | movcReg | movcRegR1 | movReg => exact faultsWithin_next _
  | movcRead cc d m r | movcWrite cc m d r => exact movMapped_faultsWithin s _ cc m d r _
  | movRead d m r | movWrite m d r => exact movMapped_faultsWithin s _ .al m d r _
  | ld d r w => exact execLd_faultsWithin s d r w
  | ldWord d r => exact execLd_faultsWithin s d r wordField
  | st d r w => exact execSt_faultsWithin s d r w
  | stWord d r => exact execSt_faultsWithin s d r wordField
  | push d r w => exact execPush_faultsWithin s d r w
  | pushWord d r => exact execPush_faultsWithin s d r wordField
  | pushShort r => exact execPush_faultsWithin s stackReg r wordField
  | pop d r w => exact execPop_faultsWithin s d r w
  | popWord d r => exact execPop_faultsWithin s d r wordField
  | popShort d => exact execPop_faultsWithin s d stackReg wordField

/-- The access fault of a fetch is for a byte of the fetch (20_memory.md R56). -/
theorem fetch_faultsWithin : FaultsWithin s.launch ((List.range Config.instrBytes).map (byteAddr s.pc)) (fetch s) := by
  intro a p h
  unfold fetch at h
  split at h
  next hun =>
    obtain ⟨k, hk, hkind⟩ := anyByte_eq_true.1 hun
    exact ⟨_, List.mem_map_of_mem (List.mem_range.2 hk), hkind⟩
  next => split at h <;> cases h

theorem decodeFetched_ne_fault {w : Word} {e : Fault} : decodeFetched w ≠ .fault e := by
  unfold decodeFetched
  split <;> nofun

/-- A step that faults has faulted in its fetch, or in the instruction at `pc`. -/
theorem step_eq_fault {e : Fault} (h : step s = .fault e) :
    ¬ s.final ∧ (fetch s = .fault e ∨ ∃ i, instrAt s = some i ∧ exec i s = .fault e) := by
  by_cases hend : s.final
  · rw [step_of_final hend] at h
    cases h
  · refine ⟨hend, ?_⟩
    rw [step_of_not_final hend] at h
    cases hf : fetch s with
    | refused => rw [hf, andThen_refused] at h; cases h
    | fault => rw [hf, andThen_fault] at h; exact .inl (congrArg _ (Host.Outcome.fault.inj h))
    | next w =>
      rw [hf, andThen_next] at h
      cases hd : decodeFetched w with
      | refused => rw [hd, andThen_refused] at h; cases h
      | fault => exact absurd hd decodeFetched_ne_fault
      | next i => exact .inr ⟨i, by simp [instrAt, hf, hd], by rwa [hd, andThen_next] at h⟩

/-- The access fault of a step is for a byte that the step touches. -/
theorem step_faultsWithin : FaultsWithin s.launch (touchedBytes s) (step s) := by
  intro a p h
  obtain ⟨-, hfetch | ⟨i, hi, hexec⟩⟩ := step_eq_fault s h
  · obtain ⟨b, hb, hkind⟩ := fetch_faultsWithin s a p hfetch
    exact ⟨b, List.mem_append_left _ hb, hkind⟩
  · obtain ⟨b, hb, hkind⟩ := exec_faultsWithin s i a p hexec
    exact ⟨b, List.mem_append_right _ (by rwa [hi]), hkind⟩

end Instructions

/-- A run that faults has completed a shorter run, and faulted in the step after it. -/
theorem runSteps_eq_fault {n : Nat} {s : State} {e : Fault} (h : runSteps n s = .fault e) :
    ∃ m t, runSteps m s = .next t ∧ step t = .fault e := by
  induction n with
  | zero => cases h
  | succ n ih =>
    rw [runSteps_succ] at h
    cases hn : runSteps n s with
    | next t => exact ⟨n, t, hn, by rwa [hn, andThen_next] at h⟩
    | fault => rw [hn, andThen_fault] at h; exact ih (hn.trans h)
    | refused => rw [hn, andThen_refused] at h; cases h

/-- Settles O58: the step that faults would touch an unmapped byte, and the premises say that no step of the run does. -/
theorem launchedRunTouchesOnlyMapped : Obligations.LaunchedRunTouchesOnlyMapped := by
  intro start s rv program observed prem n a p hfault
  obtain ⟨m, t, hrun, hstep⟩ := runSteps_eq_fault hfault
  obtain ⟨hend, -⟩ := step_eq_fault t hstep
  obtain ⟨b, hb, hkind⟩ := step_faultsWithin t a p hstep
  exact prem.memDescribesLaunch.2 m t hrun hend b hb hkind

end Sys2Proof.Machine
end

section
/-!
PROOFS. The assembler (30_encoding.md Parts A to D). A mnemonic selects its rows of the charts, whatever the operands; of these
the first whose operand kinds fit lays out the fields, which are those of the encoder. Then conditional mnemonics, jump
offsets, relocations and shifted registers.
-/

namespace Sys2Proof.Asm

open Sys2Proof.Machine

/-! ### Conditional mnemonics (30_encoding.md Part B) -/

/-- `L` before a short form of the table gives none. -/
theorem condTable_no_L : ∀ row ∈ condTable, ∀ row' ∈ condTable, row.1 ≠ 'L' :: row'.1 := by decide

/-- Settles O9: both texts would be names of the table, which has no name that is another with an `L` before it. -/
theorem conditionalMnemonicsSplitOneWay : Obligations.ConditionalMnemonicsSplitOneWay := by
  rintro rest ⟨hL, hrest⟩
  obtain ⟨cc, hL⟩ := Option.isSome_iff_exists.1 hL
  obtain ⟨cc', hrest⟩ := Option.isSome_iff_exists.1 hrest
  obtain ⟨_, hrow⟩ := mem_condTable_of_parseCond hL
  obtain ⟨_, hrow'⟩ := mem_condTable_of_parseCond hrest
  exact condTable_no_L _ hrow _ hrow' rfl

/-! ### Relocations and jump offsets (30_encoding.md Part A) -/

/-- Settles O13: each written use of a symbol is a row of `relocOf`. -/
theorem relocationsOfSymbols : Obligations.RelocationsOfSymbols := by
  refine ⟨fun k hk => ?short, fun k hk => ?long, fun k hk => ?half, rfl, rfl, rfl⟩
  case short => rcases hk with rfl | rfl <;> exact ⟨rfl, rfl⟩
  case long => rcases hk with rfl | rfl <;> exact ⟨rfl, rfl⟩
  case half => rcases hk with rfl | rfl | rfl | rfl <;> exact ⟨rfl, rfl, rfl, rfl⟩

theorem admits_off20 {o : Int} : OperandKind.off20.admits o = true ↔ -2097152 ≤ o ∧ o ≤ 2097151 := by
  simp only [OperandKind.admits, OperandKind.range, Bool.and_eq_true, decide_eq_true_eq]
  omega

/-- A signed 20-bit field holds a quarter of a signed 22-bit offset. -/
theorem toInt_ofInt_quarter {o : Int} (hlo : -2097152 ≤ o) (hhi : o ≤ 2097151) :
    (BitVec.ofInt 20 (o / 4)).toInt = o / 4 := by
  rw [BitVec.toInt_ofInt]
  exact Int.bmod_eq_of_le (by omega) (by omega)

/-- Settles O10: an offset that is admitted and a multiple of 4 is four times its field; no other has one. -/
theorem jumpOffsetsReadBack : Obligations.JumpOffsetsReadBack := by
  refine ⟨rfl, fun o => ⟨fun ⟨hlo, hhi, h4⟩ => ?_, fun hno => if_neg fun ⟨hadm, h4⟩ => hno ?_⟩⟩
  · refine ⟨_, if_pos ⟨admits_off20.2 ⟨hlo, hhi⟩, h4⟩, ?_⟩
    rw [off20Bytes, toInt_ofInt_quarter hlo hhi]
    omega
  · obtain ⟨hlo, hhi⟩ := admits_off20.1 hadm
    exact ⟨hlo, hhi, h4⟩

/-! ### The rows of a mnemonic -/

/-- The field of the condition that a mnemonic carries (30_encoding.md R101). -/
def condField : Option Cond → List (Var × Nat)
  | some k => [(.c, k.number.toNat)]
  | none => []

/-- The word of a row whose mnemonic is matched: its operands' fields, its assignments and its condition
(30_encoding.md R102). -/
def Row.word (link : LinkParameters) (at' : Word) (args : List Written) (cc : Option Cond) (row : Row) : Option Word :=
  (operandFields link at' row.operands args).bind fun fs =>
    (assignFields row.operands args row.assigns).bind fun gs =>
      layOut row.opcode (fs ++ gs ++ condField cc)

/-- The rows whose mnemonic it is, in the order of the charts, each with the condition it carries (30_encoding.md R101). -/
def rowsOf (mn : List Char) : List (Option Cond × Row) :=
  charts.filterMap fun row => (row.matchName mn).map fun cc => (cc, row)

theorem Row.assemble_eq (link : LinkParameters) (row : Row) (mn : List Char) (args : List Written) (at' : Word) :
    row.assemble link mn args at' = (row.matchName mn).bind fun cc => row.word link at' args cc := rfl

/-- The assembler takes the first row of the mnemonic whose operands fit (30_encoding.md R106). -/
theorem assemble_eq_rowsOf (link : LinkParameters) (mn : List Char) (args : List Written) (at' : Word) :
    assemble link mn args at' = (rowsOf (mn.map Char.toUpper)).findSome? fun x => x.2.word link at' args x.1 := by
  unfold assemble rowsOf
  rw [← List.head?_filterMap, ← List.head?_filterMap, List.filterMap_filterMap]
  congr 2
  funext row
  rw [Row.assemble_eq]
  cases row.matchName (mn.map Char.toUpper) <;> rfl

/-- The rows of a mnemonic that all carry one condition, or none. -/
theorem assemble_of_rowsOf {mn : List Char} {cc : Option Cond} {rows : List Row}
    (h : rowsOf (mn.map Char.toUpper) = rows.map (cc, ·)) (link : LinkParameters) (args : List Written) (at' : Word) :
    assemble link mn args at' = rows.findSome? fun row => row.word link at' args cc := by
  rw [assemble_eq_rowsOf, h, List.findSome?_map]
  rfl

/-- The three rows of a move, with a condition in the mnemonic or with condition 15 assigned (41_mov.md R150, R157). -/
def moveRows (name : List Char) (cc : Option Cond) (l : BitVec 1) : List Row :=
  [row [(.gpr, .d), (.gpr, .s)] (regReg l.toNat), row [(.gpr, .d), (.anyreg, .s)] (readMap l.toNat),
    row [(.anyreg, .d), (.gpr, .s)] (writeMap l.toNat)]
where
  row (operands : List (OperandKind × Var)) (assigns : List (Var × Val)) : Row :=
    ⟨name, cc.isSome, operands, 0x02#8, assigns ++ (if cc.isSome then [] else [(.c, .int 15)]), cc.isSome⟩

/-- The rows of an access with its size written, and with size 4 (42_ld_st.md R165). -/
def accessRows (name : List Char) (op : BitVec 8) (p : BitVec 1) : List Row :=
  [⟨name, false, [(.gpr, .d), (.gpr, .s), (.bytesz, .w)], op, [(.p, .int p.toNat)], true⟩,
    ⟨name, false, [(.gpr, .d), (.gpr, .s)], op, [(.p, .int p.toNat), (.w, .int 4)], false⟩]

theorem rowsOf_mov : rowsOf ("MOV".toList.map Char.toUpper) = (moveRows "MOV".toList none 0#1).map (none, ·) := rfl

theorem rowsOf_movc (cc : Cond) :
    rowsOf (("MOV".toList ++ printCond cc).map Char.toUpper) =
      (moveRows "MOV".toList (some cc) 0#1).map (some cc, ·) := by
  cases cc <;> rfl

theorem rowsOf_movl (cc : Cond) :
    rowsOf (("MOVL".toList ++ printCond cc).map Char.toUpper) =
      (moveRows "MOVL".toList (some cc) 1#1).map (some cc, ·) := by
  cases cc <;> rfl

theorem rowsOf_ld : rowsOf ("LD".toList.map Char.toUpper) =
    (accessRows "LD".toList 0x03#8 0#1 ++ []).map (none, ·) := rfl

theorem rowsOf_st : rowsOf ("ST".toList.map Char.toUpper) =
    (accessRows "ST".toList 0x04#8 0#1 ++ []).map (none, ·) := rfl

/-- The row of `PUSH` with the source alone (42_ld_st.md R173). -/
def pushShortRow : Row :=
  ⟨"PUSH".toList, false, [(.gpr, .s)], 0x04#8, [(.p, .int 1), (.w, .int 4), (.d, .int 30)], false⟩

/-- The row of `POP` with the destination alone (42_ld_st.md R173). -/
def popShortRow : Row :=
  ⟨"POP".toList, false, [(.gpr, .d)], 0x03#8, [(.p, .int 1), (.w, .int 4), (.s, .int 30)], false⟩

theorem rowsOf_push :
    rowsOf ("PUSH".toList.map Char.toUpper) = (accessRows "PUSH".toList 0x04#8 1#1 ++ [pushShortRow]).map (none, ·) := rfl

theorem rowsOf_pop :
    rowsOf ("POP".toList.map Char.toUpper) = (accessRows "POP".toList 0x03#8 1#1 ++ [popShortRow]).map (none, ·) := rfl

theorem rowsOf_nop :
    rowsOf ("NOP".toList.map Char.toUpper) =
      [⟨"NOP".toList, false, [], 0x01#8, [(.k, .int 0)], false⟩].map (none, ·) := rfl

theorem rowsOf_pause :
    rowsOf ("PAUSE".toList.map Char.toUpper) =
      [⟨"PAUSE".toList, false, [(.absimm6, .k)], 0x01#8, [], true⟩].map (none, ·) := rfl

theorem rowsOf_addi :
    rowsOf ("ADDI".toList.map Char.toUpper) =
      [⟨"ADDI".toList, false, [(.gpr, .d), (.simm16, .s)], 0x08#8, [], true⟩].map (none, ·) := rfl

/-! ### The words of the rows -/

theorem place_setWidth {n : Nat} (lo : Nat) (f : BitVec n) : place lo (f.setWidth 32) = place lo f := by
  rw [place, BitVec.setWidth_eq]
  rfl

/-- A variable that the opcode has is put in its field (30_encoding.md R112). -/
theorem layOut_cons {op : BitVec 8} {v : Var} {lo : Nat} (hpos : fieldPos Config.decided.layout op v = some lo) {n : Nat}
    (f : BitVec n) {rest : List (Var × Nat)} {w : Word} (hrest : layOut op rest = some w) :
    layOut op ((v, f.toNat) :: rest) = some (place lo f ||| w) := by
  simp [layOut, hpos, hrest, place_setWidth]

theorem layOut_nil (op : BitVec 8) : layOut op [] = some (place 24 op) := rfl

theorem bitOr_left_comm (a b w : Word) : a ||| (b ||| w) = b ||| (a ||| w) := by ac_rfl

/-- The order in which a row gives the fields makes no difference. -/
theorem layOut_perm {op : BitVec 8} {fs gs : List (Var × Nat)} (h : fs.Perm gs) : layOut op fs = layOut op gs := by
  induction h with
  | nil => rfl
  | cons x _ ih => rw [layOut, layOut, ih]
  | swap x y rest =>
    simp only [layOut]
    cases fieldPos Config.decided.layout op x.1 with
    | none => cases fieldPos Config.decided.layout op y.1 <;> rfl
    | some lo =>
      cases fieldPos Config.decided.layout op y.1 with
      | none => rfl
      | some lo' =>
        cases layOut op rest with
        | none => rfl
        | some w => exact congrArg some (bitOr_left_comm ..)
  | trans _ _ ih ih' => exact ih.trans ih'

theorem or_fields_RRC (op d s c m r l : Word) :
    d ||| (s ||| (m ||| (r ||| (l ||| (c ||| op))))) = op ||| d ||| s ||| c ||| m ||| r ||| l := by
  ac_rfl

theorem or_fields_RRW (op d s w p : Word) : d ||| (s ||| (p ||| (w ||| op))) = op ||| d ||| s ||| w ||| p := by
  ac_rfl

theorem or_fields_RI16 (op d imm : Word) : d ||| (imm ||| op) = op ||| d ||| imm := by ac_rfl

theorem layOut_RRC (d s : RegIx) (cc : Cond) (m : RegMap) (r l : BitVec 1) :
    layOut 0x02#8 [(.d, d.toNat), (.s, s.toNat), (.m, m.number.toNat), (.r, r.toNat), (.l, l.toNat),
      (.c, cc.number.toNat)] = some (encodeRRC d s cc m r l) :=
  Eq.trans (layOut_cons (lo := 19) rfl d <| layOut_cons (lo := 14) rfl s <| layOut_cons (lo := 7) rfl m.number <|
    layOut_cons (lo := 6) rfl r <| layOut_cons (lo := 5) rfl l <| layOut_cons (lo := 10) rfl cc.number <|
    layOut_nil _) (congrArg some (or_fields_RRC ..))

theorem layOut_K6 (k : BitVec 6) : layOut 0x01#8 [(.k, k.toNat)] = some (encodeK6 k) :=
  (layOut_cons (lo := 0) rfl k (layOut_nil _)).trans (congrArg some (BitVec.or_comm ..))

theorem layOut_RI16 (d : RegIx) (imm : BitVec 16) :
    layOut 0x08#8 [(.d, d.toNat), (.s, imm.toNat)] = some (encodeRI16 d imm) :=
  Eq.trans (layOut_cons (lo := 19) rfl d <| layOut_cons (lo := 0) rfl imm <| layOut_nil _)
    (congrArg some (or_fields_RI16 ..))

section RRW
variable {op : BitVec 8} (hop : op = 0x03#8 ∨ op = 0x04#8) (d s : RegIx) (w : BitVec 2) (p : BitVec 1)
include hop

theorem fieldPos_RRW :
    fieldPos Config.decided.layout op .d = some 19 ∧ fieldPos Config.decided.layout op .s = some 14 ∧
      fieldPos Config.decided.layout op .p = some 11 ∧ fieldPos Config.decided.layout op .w = some 12 := by
  rcases hop with rfl | rfl <;> exact ⟨rfl, rfl, rfl, rfl⟩

theorem layOut_RRW {fields : List (Var × Nat)}
    (h : fields.Perm [(.d, d.toNat), (.s, s.toNat), (.p, p.toNat), (.w, w.toNat)]) :
    layOut op fields = some (encodeRRW op d s w p) := by
  obtain ⟨hd, hs, hp, hw⟩ := fieldPos_RRW hop
  rw [layOut_perm h, layOut_cons hd d <| layOut_cons hs s <| layOut_cons hp p <| layOut_cons hw w <| layOut_nil op]
  exact congrArg some (or_fields_RRW ..)

end RRW

/-! ### The first row that fits -/

section Rows
variable {link : LinkParameters} {at' : Word}

theorem findSome?_cons_of_eq_some {α β : Type} {f : α → Option β} {a : α} {b : β} (rest : List α) (h : f a = some b) :
    (a :: rest).findSome? f = some b := by
  rw [List.findSome?_cons, h]

theorem findSome?_cons_of_eq_none {α β : Type} {f : α → Option β} {a : α} (rest : List α) (h : f a = none) :
    (a :: rest).findSome? f = rest.findSome? f := by
  rw [List.findSome?_cons, h]

/-- A row whose operands fit, from its fields to its word. -/
theorem Row.word_of {row : Row} {args : List Written} {cc : Option Cond} {fs gs fields : List (Var × Nat)} {w : Word}
    (hfs : operandFields link at' row.operands args = some fs)
    (hgs : assignFields row.operands args row.assigns = some gs) (hfields : fs ++ gs ++ condField cc = fields)
    (hw : layOut row.opcode fields = some w) : row.word link at' args cc = some w := by
  rw [Row.word, hfs, hgs, Option.bind_some, Option.bind_some, hfields, hw]

theorem assignFields_append (ops : List (OperandKind × Var)) (args : List Written) (xs ys : List (Var × Val)) :
    assignFields ops args (xs ++ ys) =
      (assignFields ops args xs).bind fun gs => (assignFields ops args ys).map (gs ++ ·) := by
  induction xs with
  | nil => simp [assignFields]
  | cons x xs ih =>
    rw [List.cons_append, assignFields, assignFields, ih]
    cases assignField ops args x <;> cases assignFields ops args xs <;> simp [Function.comp_def]

theorem fieldOf_gpr (i : RegIx) : fieldOf link .gpr at' (.reg .gpr i) = some i.toNat := rfl

section Moves
variable {name : List Char} {cc : Option Cond} {d s : RegIx} {l : BitVec 1}

/-- The condition of the mnemonic, or the one assigned, is the last field. -/
theorem moveRow_word {operands : List (OperandKind × Var)} {assigns : List (Var × Val)} {args : List Written} {m : RegMap}
    {r : BitVec 1} (hfs : operandFields link at' operands args = some [(.d, d.toNat), (.s, s.toNat)])
    (hgs : assignFields operands args assigns = some [(.m, m.number.toNat), (.r, r.toNat), (.l, l.toNat)]) :
    (moveRows.row name cc operands assigns).word link at' args cc = some (encodeRRC d s (cc.getD .al) m r l) := by
  cases cc with
  | some k =>
    have hassigns : assignFields operands args (assigns ++ []) = _ := (congrArg _ (List.append_nil _)).trans hgs
    exact Row.word_of hfs hassigns rfl (layOut_RRC d s k m r l)
  | none =>
    have hassigns : assignFields operands args (assigns ++ [(.c, .int 15)]) =
        some [(.m, m.number.toNat), (.r, r.toNat), (.l, l.toNat), (.c, 15)] := by
      rw [assignFields_append, hgs]
      rfl
    exact Row.word_of hfs hassigns rfl (layOut_RRC d s .al m r l)

theorem moveRows_reg :
    ((moveRows name cc l).findSome? fun row => row.word link at' [.reg .gpr d, .reg .gpr s] cc) =
      some (encodeRRC d s (cc.getD .al) .gpr 0#1 l) :=
  findSome?_cons_of_eq_some _ (moveRow_word rfl rfl)

variable {m : RegMap} (hm : m ≠ .gpr)
include hm

/-- A register of another map is no `GPR` operand (30_encoding.md R83). -/
theorem fieldOf_gpr_eq_none (i : RegIx) : fieldOf link .gpr at' (.reg m i) = none := if_neg hm

theorem moveRows_read :
    ((moveRows name cc l).findSome? fun row => row.word link at' [.reg .gpr d, .reg m s] cc) =
      some (encodeRRC d s (cc.getD .al) m 0#1 l) := by
  refine (findSome?_cons_of_eq_none _ ?_).trans
    (findSome?_cons_of_eq_some _ (moveRow_word rfl rfl))
  simp [moveRows.row, Row.word, operandFields, fieldOf_gpr_eq_none hm]

theorem moveRows_write :
    ((moveRows name cc l).findSome? fun row => row.word link at' [.reg m d, .reg .gpr s] cc) =
      some (encodeRRC d s (cc.getD .al) m 1#1 l) := by
  refine (findSome?_cons_of_eq_none _ ?_).trans ((findSome?_cons_of_eq_none _ ?_).trans
    (findSome?_cons_of_eq_some _ (moveRow_word rfl rfl)))
  all_goals simp [moveRows.row, Row.word, operandFields, fieldOf_gpr_eq_none hm]

end Moves

section Accesses
variable {name : List Char} {op : BitVec 8} (hop : op = 0x03#8 ∨ op = 0x04#8) {p : BitVec 1} {more : List Row}
  {d s : RegIx}
include hop

/-- With its size written, an access is the first row (42_ld_st.md R165). -/
theorem accessRows_sized {w : BitVec 2} {z : Written} (hz : fieldOf link .bytesz at' z = some w.toNat) :
    ((accessRows name op p ++ more).findSome? fun row => row.word link at' [.reg .gpr d, .reg .gpr s, z] none) =
      some (encodeRRW op d s w p) := by
  have hfs : operandFields link at' [(.gpr, .d), (.gpr, .s), (.bytesz, .w)] [.reg .gpr d, .reg .gpr s, z] =
      some [(.d, d.toNat), (.s, s.toNat), (.w, w.toNat)] := by
    simp [operandFields, fieldOf_gpr, hz]
  refine findSome?_cons_of_eq_some _ (Row.word_of (gs := [(.p, p.toNat)]) hfs rfl rfl ?_)
  exact layOut_RRW hop d s w p (.cons _ (.cons _ (.swap _ _ [])))

/-- With two operands it is the second row, of size 4 (42_ld_st.md R165). -/
theorem accessRows_word :
    ((accessRows name op p ++ more).findSome? fun row => row.word link at' [.reg .gpr d, .reg .gpr s] none) =
      some (encodeRRW op d s wordField p) := by
  refine (findSome?_cons_of_eq_none _ rfl).trans (findSome?_cons_of_eq_some _ ?_)
  exact Row.word_of (fs := [(.d, d.toNat), (.s, s.toNat)]) (gs := [(.p, p.toNat), (.w, wordField.toNat)]) rfl rfl rfl
    (layOut_RRW hop d s wordField p (.refl _))

end Accesses

theorem pushShortRow_word (s : RegIx) :
    pushShortRow.word link at' [.reg .gpr s] none = some (encodeRRW 0x04#8 stackReg s wordField 1#1) :=
  Row.word_of (fs := [(.s, s.toNat)]) (gs := [(.p, (1#1).toNat), (.w, wordField.toNat), (.d, stackReg.toNat)])
    rfl rfl rfl
    (layOut_RRW (.inr rfl) stackReg s wordField 1#1 (List.perm_append_comm (l₁ := [_, _, _]) (l₂ := [_])))

theorem popShortRow_word (d : RegIx) :
    popShortRow.word link at' [.reg .gpr d] none = some (encodeRRW 0x03#8 d stackReg wordField 1#1) :=
  Row.word_of (fs := [(.d, d.toNat)]) (gs := [(.p, (1#1).toNat), (.w, wordField.toNat), (.s, stackReg.toNat)])
    rfl rfl rfl
    (layOut_RRW (.inl rfl) d stackReg wordField 1#1
      (.cons _ (List.perm_append_comm (l₁ := [_, _]) (l₂ := [_]))))

/-- The one-operand row is the third of its mnemonic: the first two take more operands (42_ld_st.md R173). -/
theorem accessRows_short {name : List Char} {op : BitVec 8} {p : BitVec 1} {row : Row} {r : RegIx} {w : Word}
    (h : row.word link at' [.reg .gpr r] none = some w) :
    ((accessRows name op p ++ [row]).findSome? fun row => row.word link at' [.reg .gpr r] none) = some w :=
  (findSome?_cons_of_eq_none _ rfl).trans <| (findSome?_cons_of_eq_none _ rfl).trans <|
    findSome?_cons_of_eq_some _ h

/-- The field of an `ABSIMM6` operand is its value (30_encoding.md R88). -/
theorem fieldOf_absimm6 (k : BitVec 6) : fieldOf link .absimm6 at' (.int k.toNat) = some k.toNat := by
  have hadm : OperandKind.absimm6.admits k.toNat = true := by
    simp only [OperandKind.admits, OperandKind.range, Bool.and_eq_true, decide_eq_true_eq]
    omega
  have hmod : ((k.toNat : Int) % 2 ^ OperandKind.absimm6.bits).toNat = k.toNat := by
    show ((k.toNat : Int) % 64).toNat = k.toNat
    omega
  exact (if_pos hadm).trans (congrArg some hmod)

/-- The field of a `SIMM16` operand is its two's complement (30_encoding.md R88, R119). -/
theorem fieldOf_simm16 (imm : BitVec 16) : fieldOf link .simm16 at' (.int imm.toInt) = some imm.toNat := by
  have hlo := BitVec.le_toInt imm
  have hhi := BitVec.toInt_lt (x := imm)
  have hadm : OperandKind.simm16.admits imm.toInt = true := by
    simp only [OperandKind.admits, OperandKind.range, Bool.and_eq_true, decide_eq_true_eq]
    omega
  have hmod : (imm.toInt % 2 ^ OperandKind.simm16.bits).toNat = imm.toNat := by
    show (imm.toInt % 65536).toNat = imm.toNat
    rw [BitVec.toInt_eq_toNat_cond]
    omega
  exact (if_pos hadm).trans (congrArg some hmod)

/-- Every size field but 3 is written, and read back (30_encoding.md R97). -/
theorem fieldOf_writtenSize {w : BitVec 2} (hw : w ≠ 3#2) :
    ∃ z, writtenSize w = some z ∧ fieldOf link .bytesz at' z = some w.toNat := by
  have hcases : w = 0#2 ∨ w = 1#2 ∨ w = 2#2 := by bv_omega
  rcases hcases with rfl | rfl | rfl
  · exact ⟨.int 1, rfl, rfl⟩
  · exact ⟨.int 2, rfl, rfl⟩
  · exact ⟨.int 4, rfl, rfl⟩

end Rows

/-! ### Each instruction -/

/-- The written form of the instruction assembles to its word. -/
def Assembles (link : LinkParameters) (at' : Word) (i : Instr) : Prop :=
  ∃ mn args, writtenForm i = some (mn, args) ∧ assemble link mn args at' = some (encode i)

section Each
variable {link : LinkParameters} {at' : Word}

theorem assembles_pause (k : BitVec 6) : Assembles link at' (.pause k) := by
  refine ⟨_, _, rfl, (assemble_of_rowsOf rowsOf_pause ..).trans (findSome?_cons_of_eq_some _ ?_)⟩
  refine Row.word_of (fs := [(.k, k.toNat)]) (gs := []) ?_ rfl rfl (layOut_K6 k)
  simp [operandFields, fieldOf_absimm6]

theorem assembles_nop : Assembles link at' .nop := by
  refine ⟨_, _, rfl, (assemble_of_rowsOf rowsOf_nop ..).trans (findSome?_cons_of_eq_some _ ?_)⟩
  exact Row.word_of (fs := []) (gs := [(.k, 0)]) rfl rfl rfl (layOut_K6 0#6)

theorem assembles_addi (d : RegIx) (imm : BitVec 16) : Assembles link at' (.addi d imm) := by
  refine ⟨_, _, rfl, (assemble_of_rowsOf rowsOf_addi ..).trans (findSome?_cons_of_eq_some _ ?_)⟩
  refine Row.word_of (fs := [(.d, d.toNat), (.s, imm.toNat)]) (gs := []) ?_ rfl rfl (layOut_RI16 d imm)
  simp [operandFields, fieldOf_gpr, fieldOf_simm16]

/-- An access with its size written, by the rows of its mnemonic and its word. -/
theorem assembles_sized {i : Instr} {mn : List Char} {op : BitVec 8} {p : BitVec 1} {more : List Row} {d s : RegIx}
    {w : BitVec 2} (hrows : rowsOf (mn.map Char.toUpper) = (accessRows mn op p ++ more).map (none, ·))
    (hop : op = 0x03#8 ∨ op = 0x04#8)
    (hform : writtenForm i = (writtenSize w).map fun z => (mn, [.reg .gpr d, .reg .gpr s, z]))
    (hword : encode i = encodeRRW op d s w p) (hw : w ≠ 3#2) : Assembles link at' i := by
  obtain ⟨z, hz, hfield⟩ := fieldOf_writtenSize (link := link) (at' := at') hw
  rw [hz] at hform
  exact ⟨_, _, hform, (assemble_of_rowsOf hrows ..).trans ((accessRows_sized hop hfield).trans (congrArg some hword.symm))⟩

end Each

/-- Settles O7: by its mnemonic's rows each instruction comes to the first that fits its operands, which lays out the
encoder's fields. -/
theorem assemblerAgreesWithEncoder : Obligations.AssemblerAgreesWithEncoder := by
  intro link i at' hi
  have movc (cc : Cond) (args : List Written) := assemble_of_rowsOf (rowsOf_movc cc) link args at'
  have mov (args : List Written) := assemble_of_rowsOf rowsOf_mov link args at'
  have movl (cc : Cond) (args : List Written) := assemble_of_rowsOf (rowsOf_movl cc) link args at'
  have push (args : List Written) := assemble_of_rowsOf rowsOf_push link args at'
  have pop (args : List Written) := assemble_of_rowsOf rowsOf_pop link args at'
  cases i with
  | und p =>
    obtain rfl : p = 0#24 := eq_of_beq hi
    exact ⟨_, _, rfl, assemble_und link at'⟩
  | pause k => exact assembles_pause k
  | nop => exact assembles_nop
  | movcReg cc d s => exact ⟨_, _, rfl, (movc cc _).trans moveRows_reg⟩
  | movcRegR1 => cases hi
  | movcRead cc d m s => exact ⟨_, _, rfl, (movc cc _).trans (moveRows_read (bne_iff_ne.1 hi))⟩
  | movcWrite cc m d s => exact ⟨_, _, rfl, (movc cc _).trans (moveRows_write (bne_iff_ne.1 hi))⟩
  | movReg d s => exact ⟨_, _, rfl, (mov _).trans moveRows_reg⟩
  | movRead d m s => exact ⟨_, _, rfl, (mov _).trans (moveRows_read (bne_iff_ne.1 hi))⟩
  | movWrite m d s => exact ⟨_, _, rfl, (mov _).trans (moveRows_write (bne_iff_ne.1 hi))⟩
  | movlReg cc d s => exact ⟨_, _, rfl, (movl cc _).trans moveRows_reg⟩
  | movlRead cc d m s => exact ⟨_, _, rfl, (movl cc _).trans (moveRows_read (bne_iff_ne.1 hi))⟩
  | movlWrite cc m d s => exact ⟨_, _, rfl, (movl cc _).trans (moveRows_write (bne_iff_ne.1 hi))⟩
  | ld d s w => exact assembles_sized rowsOf_ld (.inl rfl) rfl rfl (bne_iff_ne.1 hi)
  | st d s w => exact assembles_sized rowsOf_st (.inr rfl) rfl rfl (bne_iff_ne.1 hi)
  | push d s w => exact assembles_sized rowsOf_push (.inr rfl) rfl rfl (bne_iff_ne.1 hi)
  | pop d s w => exact assembles_sized rowsOf_pop (.inl rfl) rfl rfl (bne_iff_ne.1 hi)
  | ldWord d s => exact ⟨_, _, rfl, (assemble_of_rowsOf rowsOf_ld ..).trans (accessRows_word (.inl rfl))⟩
  | stWord d s => exact ⟨_, _, rfl, (assemble_of_rowsOf rowsOf_st ..).trans (accessRows_word (.inr rfl))⟩
  | pushWord d s => exact ⟨_, _, rfl, (push _).trans (accessRows_word (.inr rfl))⟩
  | popWord d s => exact ⟨_, _, rfl, (pop _).trans (accessRows_word (.inl rfl))⟩
  | pushShort s => exact ⟨_, _, rfl, (push _).trans (accessRows_short (pushShortRow_word s))⟩
  | popShort d => exact ⟨_, _, rfl, (pop _).trans (accessRows_short (popShortRow_word d))⟩
  | addi d imm => exact assembles_addi d imm

/-! ### Shifted registers (30_encoding.md Part A) -/

/-- A text of digits reads as the number they write. -/
theorem foldl_digits {cs : List Char} (h : ∀ ch ∈ cs, ch.isDigit = true) (k : Nat) :
    cs.foldl (fun acc ch => acc.bind fun k => if ch.isDigit then some (10 * k + (ch.toNat - 48)) else none) (some k) =
      some (Nat.ofDigitChars 10 cs k) := by
  induction cs generalizing k with
  | nil => rfl
  | cons ch cs ih =>
    rw [List.forall_mem_cons] at h
    rw [List.foldl_cons, Nat.ofDigitChars_cons, Option.bind_some, if_pos h.1]
    exact ih h.2 _

theorem isDigit_of_mem_digits {n : Nat} : ∀ ch ∈ Nat.toDigits 10 n, ch.isDigit = true := fun _ h =>
  Nat.isDigit_of_mem_toDigits (by decide) (by decide) h

theorem parseNat_toDigits (n : Nat) : parseNat (Nat.toDigits 10 n) = some n := by
  rw [parseNat, if_neg Nat.toDigits_ne_nil, foldl_digits isDigit_of_mem_digits, Nat.ofDigitChars_ten_toDigits]

theorem parseReg_printReg_gpr (i : RegIx) : parseReg (printReg .gpr i) = some (.gpr, i) := by
  have hix : parseIx (Nat.toDigits 10 i.toNat) = some i := by
    rw [parseIx, parseNat_toDigits, Option.bind_some, if_pos i.isLt, BitVec.ofNat_toNat, BitVec.setWidth_eq]
  show (parseIx (Nat.toDigits 10 i.toNat)).map _ = _
  rw [hix]
  rfl

/-- What stands before the first `<<` has no `<`. -/
theorem splitShift_append {cs : List Char} (h : '<' ∉ cs) (rest : List Char) :
    splitShift (cs ++ '<' :: '<' :: rest) = some (cs, rest) := by
  induction cs with
  | nil => rfl
  | cons ch cs ih =>
    obtain ⟨hch, hcs⟩ := not_or.1 (List.mem_cons.not.1 h)
    rw [List.cons_append, splitShift, ih hcs]
    · rfl
    · intro _ h _
      exact hch h.symm

/-- Blanks are dropped only from the front. -/
theorem dropBlanks_append {cs : List Char} (hne : cs ≠ []) (h : ' ' ∉ cs) (rest : List Char) :
    (cs ++ rest).dropWhile (· == ' ') = cs ++ rest := by
  cases cs with
  | nil => exact absurd rfl hne
  | cons ch cs =>
    obtain ⟨hch, -⟩ := not_or.1 (List.mem_cons.not.1 h)
    exact List.dropWhile_cons_of_neg (by simpa using Ne.symm hch)

theorem dropBlanks_blank_cons (cs : List Char) : (' ' :: cs).dropWhile (· == ' ') = cs.dropWhile (· == ' ') := rfl

section Trim
variable {cs : List Char} (hne : cs ≠ []) (h : ' ' ∉ cs)
include hne h

theorem dropBlanks_eq_self : cs.dropWhile (· == ' ') = cs := by
  simpa using dropBlanks_append hne h []

theorem dropBlanks_reverse_eq_self : cs.reverse.dropWhile (· == ' ') = cs.reverse :=
  dropBlanks_eq_self (by simpa using hne) (by simpa using h)

theorem trimBlanks_append_blank : trimBlanks (cs ++ [' ']) = cs := by
  rw [trimBlanks, dropBlanks_append hne h, List.reverse_append, List.reverse_singleton, List.singleton_append,
    dropBlanks_blank_cons, dropBlanks_reverse_eq_self hne h, List.reverse_reverse]

theorem trimBlanks_blank_cons : trimBlanks (' ' :: cs) = cs := by
  rw [trimBlanks, dropBlanks_blank_cons, dropBlanks_eq_self hne h, dropBlanks_reverse_eq_self hne h,
    List.reverse_reverse]

end Trim

theorem not_mem_digits {ch : Char} (hch : ch.isDigit = false) (n : Nat) : ch ∉ Nat.toDigits 10 n := fun h =>
  Bool.false_ne_true (hch.symm.trans (isDigit_of_mem_digits ch h))

theorem not_mem_printReg_gpr {ch : Char} (hr : ch ≠ 'r') (hch : ch.isDigit = false) (i : RegIx) : ch ∉ printReg .gpr i :=
  List.mem_cons.not.2 (not_or.2 ⟨hr, not_mem_digits hch i.toNat⟩)

theorem admits_absimm5 {n : Int} : OperandKind.absimm5.admits n = true ↔ 0 ≤ n ∧ n ≤ 31 := by
  simp only [OperandKind.admits, OperandKind.range, Bool.and_eq_true, decide_eq_true_eq]
  omega

/-- The text of a shifted register: its register and its count about the first `<<`, each beside a blank. -/
theorem printWritten_shifted (m : RegMap) (i : RegIx) (n : Nat) :
    printWritten (.shifted m i n) = (printReg m i ++ [' ']) ++ '<' :: '<' :: ' ' :: Nat.toDigits 10 n := by
  have hint : printInt n = Nat.toDigits 10 n := if_neg (by omega)
  rw [printWritten, hint, List.append_assoc, List.append_assoc]
  rfl

theorem parseSgpr_printWritten (i : RegIx) {n : Nat} (hn : n ≤ 31) :
    parseSgpr (printWritten (.shifted .gpr i n)) = some (.shifted .gpr i n) := by
  have hno : '<' ∉ printReg .gpr i ++ [' '] :=
    List.mem_append.not.2 (not_or.2 ⟨not_mem_printReg_gpr (by decide) rfl i, by decide⟩)
  have hreg : trimBlanks (printReg .gpr i ++ [' ']) = printReg .gpr i :=
    trimBlanks_append_blank (by simp [printReg, RegMap.text]) (not_mem_printReg_gpr (by decide) rfl i)
  have hcount : trimBlanks (' ' :: Nat.toDigits 10 n) = Nat.toDigits 10 n :=
    trimBlanks_blank_cons Nat.toDigits_ne_nil (not_mem_digits rfl n)
  rw [parseSgpr, printWritten_shifted, splitShift_append hno, Option.bind_some, hreg, parseReg_printReg_gpr,
    Option.bind_some, hcount, parseNat_toDigits, Option.bind_some]
  exact if_pos ⟨rfl, admits_absimm5.2 (by omega)⟩

/-- A text that is read as an `SGPR` has been tested for its map and its count. -/
theorem parseSgpr_eq_some {text : List Char} {x : Written} (h : parseSgpr text = some x) :
    ∃ (i : RegIx) (n : Nat), n ≤ 31 ∧ x = .shifted .gpr i n := by
  obtain ⟨halves, -, h⟩ := Option.bind_eq_some_iff.1 h
  obtain ⟨⟨m, i⟩, -, h⟩ := Option.bind_eq_some_iff.1 h
  obtain ⟨n, -, h⟩ := Option.bind_eq_some_iff.1 h
  obtain ⟨⟨rfl, hadm⟩, hx⟩ := Option.ite_none_right_eq_some.1 h
  have hrange := admits_absimm5.1 hadm
  exact ⟨i, n, by omega, (Option.some.inj hx).symm⟩

/-- Settles O54: the text is cut at its one `<<` into the texts of the register and of the count, and each reads back; what is
read, and what has a field, has been tested for map 0 and a count of 0 to 31. -/
theorem shiftedRegistersReadBack : Obligations.ShiftedRegistersReadBack := by
  refine ⟨fun link i n at' hn => ⟨if_pos ⟨rfl, ?admitted⟩, ?count, parseSgpr_printWritten i hn⟩,
    fun link m i n at' hno => if_neg fun ⟨hm, hadm⟩ => hno ⟨hm, admits_absimm5.1 hadm⟩,
    fun text x => parseSgpr_eq_some, fun link a at' h pcrel => rfl, by decide⟩
  case admitted => exact admits_absimm5.2 (by omega)
  case count => rw [shiftOf, if_pos (admits_absimm5.2 (by omega)), BitVec.ofInt_natCast]

end Sys2Proof.Asm
end

section
/-!
PROOFS. The launch and reset states (10_state.md section 6; 70_reset_and_hazards.md section 1), the memory map (20_memory.md
R51), the complement of a condition (10_state.md section 3), and the configuration record (00_scope.md R6).
-/

namespace Sys2Proof

/-! ### The complement of a condition -/

/-- The condition with the opposite name: its number is 15 minus the number (10_state.md section 3). -/
def Cond.complement : Cond → Cond
  | .nv => .al | .c => .nc | .z => .nz | .v => .no | .ce => .a | .lt => .ge | .le => .gt | .n => .p
  | .p => .n | .gt => .le | .ge => .lt | .a => .ce | .no => .v | .nz => .z | .nc => .c | .al => .nv

theorem Cond.ofNumber_complement : ∀ k, Cond.ofNumber (15#4 - k) = (Cond.ofNumber k).complement := by decide

end Sys2Proof

namespace Sys2Proof.Machine

/-- Row by row, the formulas of the two names are each other's negation, by De Morgan where there are two flags. -/
theorem condHolds_complement (cc : Cond) (f : Flags) : condHolds cc.complement f = !condHolds cc f := by
  cases cc with
  | nv | c | z | v | n | ge | al => rfl
  | p | no | nz | nc | lt => exact (Bool.not_not _).symm
  | ce => exact (Bool.not_or _ _).symm
  | a | le | gt => simp [Cond.complement, condHolds, bne]

/-- Settles O18: 15 minus a number is the number of the opposite name. -/
theorem conditionComplementLaw : Obligations.ConditionComplementLaw := by
  intro k f
  rw [Cond.ofNumber_complement, condHolds_complement]

/-! ### The launch state and reset -/

/-- Settles O14: each field of the launch state is the launch's own. -/
theorem launchStateIsAsGiven : Obligations.LaunchStateIsAsGiven :=
  fun _ _ _ _ => ⟨rfl, rfl, rfl, fun _ => rfl, fun _ => rfl, rfl⟩

theorem readReg_reset (i : RegIx) : readReg i State.reset = 0#32 := Vector.getElem_replicate _

theorem text_reset : State.reset.launch.text = [{ first := 0x400, count := 1 }] := rfl

theorem data_reset :
    State.reset.launch.data = [{ first := 0, count := 0x400 }, { first := 0x401, count := 2 ^ 30 - 0x401 }] := rfl

theorem span_has {sp : Span} {a : Nat} : sp.has a = true ↔ sp.first ≤ a / 4 ∧ a / 4 < sp.first + sp.count := by
  simp [Span.has]

/-- At reset the block of `RESET_VECTOR` is `Text`, and the blocks below and above it are the two spans of `Data`. -/
theorem kind_reset {a : Nat} (ha : a < 2 ^ 32) :
    State.reset.launch.kind a = if a / 4 = 0x00001000 / 4 then .text else .data := by
  have htext : State.reset.launch.text.any (·.has a) = true ↔ a / 4 = 0x400 := by
    simp only [text_reset, List.any_cons, List.any_nil, Bool.or_false, span_has]
    omega
  have hdata : State.reset.launch.data.any (·.has a) = true ↔ a / 4 ≠ 0x400 := by
    simp only [data_reset, List.any_cons, List.any_nil, Bool.or_false, Bool.or_eq_true, span_has]
    omega
  unfold Launch.kind
  by_cases h : a / 4 = 0x400
  · rw [if_pos (htext.2 h), if_pos h]
  · rw [if_neg (mt htext.1 h), if_pos (hdata.2 h), if_neg h]

/-- Settles O15: no byte is listed at reset, and the map is two spans of `Data` about one block of `Text`. -/
theorem resetNamesItsValues : Obligations.ResetNamesItsValues :=
  ⟨rfl, readReg_reset, rfl, fun _ => rfl, fun _ => kind_reset, rfl⟩

/-- Settles O16: the reset `pc` is a multiple of 4, and no byte is listed. -/
theorem invariantHoldsAtReset : Obligations.InvariantHoldsAtReset := ⟨rfl, reset_mem_wf⟩

/-! ### The memory map -/

/-- An aligned access lies in one block, since its size divides 4 (20_memory.md R51, R55). -/
theorem block_of_aligned {a : Word} {sz : Size} (h : a.toNat % sz.bytes = 0) {k : Nat} (hk : k < sz.bytes) :
    byteAddr a k / 4 = a.toNat / 4 := by
  rw [byteAddr_of_aligned h hk]
  rcases sz.bytes_cases with e | e | e <;> rw [e] at h hk <;> omega

/-- Settles O55: a kind is that of the block; an aligned access lies in one block; the reset values are computed. -/
theorem memoryMapIsBlockwise : Obligations.MemoryMapIsBlockwise := by
  refine ⟨fun l a b => kind_eq_of_block l, fun l a sz j k ha hj hk => kind_eq_of_block l ?_, rfl, rfl, by decide⟩
  rw [block_of_aligned ha hj, block_of_aligned ha hk]

/-! ### The configuration record -/

/-- The maps of the coprocessors have the numbers from 4 on (10_state.md R35; `MAP_CO`). -/
theorem mapCo_toNat : ∀ k, (Config.decided.mapCo k).toNat = 4 + k.toNat := by decide

theorem number_eq_map (m : RegMap) :
    m.number = match m with
      | .gpr => Config.decided.mapGpr | .sys => Config.decided.mapSys | .info => Config.decided.mapInfo
      | .io => Config.decided.mapIo | .co k => Config.decided.mapCo k := by
  cases m <;> rfl

theorem addi_flags {d : RegIx} {imm : BitVec 16} {s t : State} (h : exec (.addi d imm) s = .next t) :
    t.flags = drawFlags s.draws := by
  obtain rfl := Host.Outcome.next.inj ((exec_addi d imm s).symm.trans h)
  rfl

/-- Settles O59: the rows with a value are those of `Config.decided`, which the definitions read, and the OPEN rows are the
arguments. -/
theorem parametersAreAsDecided : Obligations.ParametersAreAsDecided := by
  rintro launch link p rfl
  exact
    ⟨⟨rfl, rfl, rfl, rfl, rfl⟩, ⟨rfl, rfl, rfl, rfl, mapCo_toNat⟩,
      ⟨rfl, rfl, rfl, rfl, rfl, rfl, rfl, rfl, rfl, rfl, rfl, rfl⟩, ⟨rfl, rfl, rfl⟩, fun _ _ => ⟨rfl, rfl⟩,
      ⟨rfl, rfl⟩, ⟨rfl, rfl, rfl, fun s => s.regs.size_toArray⟩, number_eq_map, fun _ _ => ⟨rfl, rfl⟩,
      fun _ _ _ _ _ _ => rfl, fun _ _ _ _ _ => rfl, fun _ _ _ _ => ⟨rfl, rfl, rfl⟩, fun _ _ _ => ⟨rfl, rfl⟩,
      fun _ => rfl, fun _ _ _ _ => addi_flags⟩

end Sys2Proof.Machine
end
